-- ==== Sys2Proof/Word.lean ====
section
/-! DEFINITION. The bit-vector types of Feather ISA: words, bytes and register indices (00_scope.md R6, R7, R10). -/

namespace Sys2Proof

/-- A 32-bit word: a register value, an address, the pc or an instruction word (R6, R7, R10). -/
abbrev Word := BitVec 32

/-- A byte of memory, 8 bits (R40). -/
abbrev Byte := BitVec 8

/-- A register index, 5 bits, naming `x0` to `x31` (R7, R21, R23). -/
abbrev RegIdx := BitVec 5

end Sys2Proof
end

