-- ==== Sys2Proof/Syntax.lean ====
section
/-! DEFINITION. The 44 instructions of Feather ISA (00_scope.md R4, 30_encoding.md R85), one constructor per row of
spec/opcode_table.json, in the table's order. An operand is the instruction's own field: register indices of 5 bits,
12-bit I and S immediates, 5-bit shift amounts, the assembled 13-bit B and 21-bit J byte offsets (bit 0 included,
R81, R82) and the raw 20-bit U field (R83). -/

namespace Sys2Proof

/-- One instruction of Feather ISA with its operand fields. -/
inductive Instr where
  -- R type (41_r_type.md)
  | add (rd rs1 rs2 : RegIdx)
  | mul (rd rs1 rs2 : RegIdx)
  | addu (rd rs1 rs2 : RegIdx)
  | sub (rd rs1 rs2 : RegIdx)
  | subu (rd rs1 rs2 : RegIdx)
  | sll (rd rs1 rs2 : RegIdx)
  | slt (rd rs1 rs2 : RegIdx)
  | sltu (rd rs1 rs2 : RegIdx)
  | xor (rd rs1 rs2 : RegIdx)
  | div (rd rs1 rs2 : RegIdx)
  | srl (rd rs1 rs2 : RegIdx)
  | sra (rd rs1 rs2 : RegIdx)
  | or (rd rs1 rs2 : RegIdx)
  | rem (rd rs1 rs2 : RegIdx)
  | and (rd rs1 rs2 : RegIdx)
  -- I type, register-immediate (42_i_type_alu.md)
  | addi (rd rs1 : RegIdx) (imm : BitVec 12)
  | slli (rd rs1 : RegIdx) (shamt : BitVec 5)
  | slti (rd rs1 : RegIdx) (imm : BitVec 12)
  | sltiu (rd rs1 : RegIdx) (imm : BitVec 12)
  | xori (rd rs1 : RegIdx) (imm : BitVec 12)
  | srli (rd rs1 : RegIdx) (shamt : BitVec 5)
  | srai (rd rs1 : RegIdx) (shamt : BitVec 5)
  | ori (rd rs1 : RegIdx) (imm : BitVec 12)
  | andi (rd rs1 : RegIdx) (imm : BitVec 12)
  -- I type, loads (43_i_type_load.md)
  | lb (rd rs1 : RegIdx) (imm : BitVec 12)
  | lh (rd rs1 : RegIdx) (imm : BitVec 12)
  | lw (rd rs1 : RegIdx) (imm : BitVec 12)
  | lbu (rd rs1 : RegIdx) (imm : BitVec 12)
  | lhu (rd rs1 : RegIdx) (imm : BitVec 12)
  -- I type, system (44_i_type_system.md)
  | ecall
  | ebreak
  -- S type (45_s_type.md)
  | sb (rs1 rs2 : RegIdx) (imm : BitVec 12)
  | sh (rs1 rs2 : RegIdx) (imm : BitVec 12)
  | sw (rs1 rs2 : RegIdx) (imm : BitVec 12)
  -- B type (46_b_type.md)
  | beq (rs1 rs2 : RegIdx) (off : BitVec 13)
  | bne (rs1 rs2 : RegIdx) (off : BitVec 13)
  | blt (rs1 rs2 : RegIdx) (off : BitVec 13)
  | bge (rs1 rs2 : RegIdx) (off : BitVec 13)
  | bltu (rs1 rs2 : RegIdx) (off : BitVec 13)
  | bgeu (rs1 rs2 : RegIdx) (off : BitVec 13)
  -- J type (47_j_type.md)
  | jal (rd : RegIdx) (off : BitVec 21)
  | jalr (rd rs1 : RegIdx) (imm : BitVec 12)
  -- U type (48_u_type.md)
  | lui (rd : RegIdx) (imm : BitVec 20)
  | auipc (rd : RegIdx) (imm : BitVec 20)
deriving DecidableEq, Repr

/-- The mnemonic of the instruction's row in spec/opcode_table.json (R90). -/
def Instr.mnemonic : Instr → String
  | .add .. => "add"
  | .mul .. => "mul"
  | .addu .. => "addu"
  | .sub .. => "sub"
  | .subu .. => "subu"
  | .sll .. => "sll"
  | .slt .. => "slt"
  | .sltu .. => "sltu"
  | .xor .. => "xor"
  | .div .. => "div"
  | .srl .. => "srl"
  | .sra .. => "sra"
  | .or .. => "or"
  | .rem .. => "rem"
  | .and .. => "and"
  | .addi .. => "addi"
  | .slli .. => "slli"
  | .slti .. => "slti"
  | .sltiu .. => "sltiu"
  | .xori .. => "xori"
  | .srli .. => "srli"
  | .srai .. => "srai"
  | .ori .. => "ori"
  | .andi .. => "andi"
  | .lb .. => "lb"
  | .lh .. => "lh"
  | .lw .. => "lw"
  | .lbu .. => "lbu"
  | .lhu .. => "lhu"
  | .ecall => "ecall"
  | .ebreak => "ebreak"
  | .sb .. => "sb"
  | .sh .. => "sh"
  | .sw .. => "sw"
  | .beq .. => "beq"
  | .bne .. => "bne"
  | .blt .. => "blt"
  | .bge .. => "bge"
  | .bltu .. => "bltu"
  | .bgeu .. => "bgeu"
  | .jal .. => "jal"
  | .jalr .. => "jalr"
  | .lui .. => "lui"
  | .auipc .. => "auipc"

end Sys2Proof
end

