-- ==== Sys2Proof/WellFormed.lean ====
section
/-! DEFINITION. Which terms of `Instr` an instruction word can stand for. Every field of every format is either an
operand, at every value, or part of the match (93_implementation_defined.md, "Reserved fields"), so the one check is
that a B or J offset is even (30_encoding.md R81, R82). -/

namespace Sys2Proof

/-- The offset's bit 0 is zero, as `immB` and `immJ` always have it (R81, R82). -/
def evenOffset {n : Nat} (off : BitVec n) : Bool := !off.getLsbD 0

/-- The term is one some instruction word encodes. -/
def Instr.wellFormed : Instr → Bool
  | .add .. => true
  | .mul .. => true
  | .addu .. => true
  | .sub .. => true
  | .subu .. => true
  | .sll .. => true
  | .slt .. => true
  | .sltu .. => true
  | .xor .. => true
  | .div .. => true
  | .srl .. => true
  | .sra .. => true
  | .or .. => true
  | .rem .. => true
  | .and .. => true
  | .addi .. => true
  | .slli .. => true
  | .slti .. => true
  | .sltiu .. => true
  | .xori .. => true
  | .srli .. => true
  | .srai .. => true
  | .ori .. => true
  | .andi .. => true
  | .lb .. => true
  | .lh .. => true
  | .lw .. => true
  | .lbu .. => true
  | .lhu .. => true
  | .ecall => true
  | .ebreak => true
  | .sb .. => true
  | .sh .. => true
  | .sw .. => true
  | .beq _ _ off => evenOffset off
  | .bne _ _ off => evenOffset off
  | .blt _ _ off => evenOffset off
  | .bge _ _ off => evenOffset off
  | .bltu _ _ off => evenOffset off
  | .bgeu _ _ off => evenOffset off
  | .jal _ off => evenOffset off
  | .jalr .. => true
  | .lui .. => true
  | .auipc .. => true

end Sys2Proof
end

