-- ==== Sys2Proof/Decode.lean ====
section
/-! DEFINITION. Instruction words to instructions and back (30_encoding.md): the fields, the decoder, which is total
and rejects by name, the encoder written from the same formats, and the opcode table's match and mask rows. -/

namespace Sys2Proof

/-- Why a word, or a string of bytes, is no instruction: the clauses of R86, one name each, and a string too short. -/
inductive Reject where
  /-- Fewer than the four bytes of an instruction (R70). -/
  | tooShort
  /-- R86 (a): `inst[6:0]` is none of the ten opcodes. -/
  | opcode
  /-- R86 (b): opcode `0110011` with a (funct3, funct7) pair of no row. -/
  | rType
  /-- R86 (c): a shift immediate whose `inst[31:25]` is of no row. -/
  | shiftImm
  /-- R86 (d): a load funct3 of no row. -/
  | load
  /-- R86 (e): a store funct3 of no row. -/
  | store
  /-- R86 (f): a branch funct3 of no row. -/
  | branch
  /-- R86 (g): opcode `1100111` with a funct3 other than `000`. -/
  | jalr
  /-- R86 (h): opcode `1110011` and neither the `ecall` nor the `ebreak` word. -/
  | system
deriving DecidableEq, Repr

/-! ## Fields (R71) and immediates (R78 to R83) -/

/-- `inst[6:0]`. -/
def opcodeOf (w : Word) : BitVec 7 := w.extractLsb' 0 7
/-- `inst[11:7]`. -/
def rdOf (w : Word) : RegIdx := w.extractLsb' 7 5
/-- `inst[14:12]`. -/
def funct3Of (w : Word) : BitVec 3 := w.extractLsb' 12 3
/-- `inst[19:15]`. -/
def rs1Of (w : Word) : RegIdx := w.extractLsb' 15 5
/-- `inst[24:20]`. -/
def rs2Of (w : Word) : RegIdx := w.extractLsb' 20 5
/-- `inst[31:25]`: funct7, or `imm[11:5]` of a shift immediate. -/
def funct7Of (w : Word) : BitVec 7 := w.extractLsb' 25 7
/-- `shamt = inst[24:20]` (R78). -/
def shamtOf (w : Word) : BitVec 5 := w.extractLsb' 20 5
/-- The 12-bit field of `immI`, `inst[31:20]` (R79). -/
def immIOf (w : Word) : BitVec 12 := w.extractLsb' 20 12
/-- The 12-bit value of `immS`, `inst[31:25] || inst[11:7]` (R80). -/
def immSOf (w : Word) : BitVec 12 := w.extractLsb' 25 7 ++ w.extractLsb' 7 5
/-- The 13-bit value of `immB`, `inst[31] || inst[7] || inst[30:25] || inst[11:8] || 0` (R81). -/
def immBOf (w : Word) : BitVec 13 :=
  w.extractLsb' 31 1 ++ w.extractLsb' 7 1 ++ w.extractLsb' 25 6 ++ w.extractLsb' 8 4 ++ 0#1
/-- The 21-bit value of `immJ`, `inst[31] || inst[19:12] || inst[20] || inst[30:21] || 0` (R82). -/
def immJOf (w : Word) : BitVec 21 :=
  w.extractLsb' 31 1 ++ w.extractLsb' 12 8 ++ w.extractLsb' 20 1 ++ w.extractLsb' 21 10 ++ 0#1
/-- The 20-bit field of `immU`, `inst[31:12]` (R83). -/
def immUOf (w : Word) : BitVec 20 := w.extractLsb' 12 20

/-! ## The decoder (R84, R85, R87) -/

/-- Opcode `0110011`: the second table of R85. -/
def decodeR (w : Word) : Except Reject Instr :=
  let rd := rdOf w
  let rs1 := rs1Of w
  let rs2 := rs2Of w
  if funct3Of w = 0b000#3 ∧ funct7Of w = 0x00#7 then .ok (.add rd rs1 rs2)
  else if funct3Of w = 0b000#3 ∧ funct7Of w = 0x01#7 then .ok (.mul rd rs1 rs2)
  else if funct3Of w = 0b000#3 ∧ funct7Of w = 0x02#7 then .ok (.addu rd rs1 rs2)
  else if funct3Of w = 0b000#3 ∧ funct7Of w = 0x20#7 then .ok (.sub rd rs1 rs2)
  else if funct3Of w = 0b000#3 ∧ funct7Of w = 0x04#7 then .ok (.subu rd rs1 rs2)
  else if funct3Of w = 0b001#3 ∧ funct7Of w = 0x00#7 then .ok (.sll rd rs1 rs2)
  else if funct3Of w = 0b010#3 ∧ funct7Of w = 0x00#7 then .ok (.slt rd rs1 rs2)
  else if funct3Of w = 0b011#3 ∧ funct7Of w = 0x00#7 then .ok (.sltu rd rs1 rs2)
  else if funct3Of w = 0b100#3 ∧ funct7Of w = 0x00#7 then .ok (.xor rd rs1 rs2)
  else if funct3Of w = 0b100#3 ∧ funct7Of w = 0x01#7 then .ok (.div rd rs1 rs2)
  else if funct3Of w = 0b101#3 ∧ funct7Of w = 0x00#7 then .ok (.srl rd rs1 rs2)
  else if funct3Of w = 0b101#3 ∧ funct7Of w = 0x20#7 then .ok (.sra rd rs1 rs2)
  else if funct3Of w = 0b110#3 ∧ funct7Of w = 0x00#7 then .ok (.or rd rs1 rs2)
  else if funct3Of w = 0b110#3 ∧ funct7Of w = 0x01#7 then .ok (.rem rd rs1 rs2)
  else if funct3Of w = 0b111#3 ∧ funct7Of w = 0x00#7 then .ok (.and rd rs1 rs2)
  else .error .rType

/-- Opcode `0010011`: funct3, and `imm[11:5]` for funct3 `001` and `101` (R78, R85). -/
def decodeImm (w : Word) : Except Reject Instr :=
  let rd := rdOf w
  let rs1 := rs1Of w
  if funct3Of w = 0b000#3 then .ok (.addi rd rs1 (immIOf w))
  else if funct3Of w = 0b001#3 then
    if funct7Of w = 0x00#7 then .ok (.slli rd rs1 (shamtOf w)) else .error .shiftImm
  else if funct3Of w = 0b010#3 then .ok (.slti rd rs1 (immIOf w))
  else if funct3Of w = 0b011#3 then .ok (.sltiu rd rs1 (immIOf w))
  else if funct3Of w = 0b100#3 then .ok (.xori rd rs1 (immIOf w))
  else if funct3Of w = 0b101#3 then
    if funct7Of w = 0x00#7 then .ok (.srli rd rs1 (shamtOf w))
    else if funct7Of w = 0x20#7 then .ok (.srai rd rs1 (shamtOf w))
    else .error .shiftImm
  else if funct3Of w = 0b110#3 then .ok (.ori rd rs1 (immIOf w))
  else .ok (.andi rd rs1 (immIOf w))

/-- Opcode `0000011`. -/
def decodeLoad (w : Word) : Except Reject Instr :=
  let rd := rdOf w
  let rs1 := rs1Of w
  if funct3Of w = 0b000#3 then .ok (.lb rd rs1 (immIOf w))
  else if funct3Of w = 0b001#3 then .ok (.lh rd rs1 (immIOf w))
  else if funct3Of w = 0b010#3 then .ok (.lw rd rs1 (immIOf w))
  else if funct3Of w = 0b100#3 then .ok (.lbu rd rs1 (immIOf w))
  else if funct3Of w = 0b101#3 then .ok (.lhu rd rs1 (immIOf w))
  else .error .load

/-- Opcode `0100011`. -/
def decodeStore (w : Word) : Except Reject Instr :=
  if funct3Of w = 0b000#3 then .ok (.sb (rs1Of w) (rs2Of w) (immSOf w))
  else if funct3Of w = 0b001#3 then .ok (.sh (rs1Of w) (rs2Of w) (immSOf w))
  else if funct3Of w = 0b010#3 then .ok (.sw (rs1Of w) (rs2Of w) (immSOf w))
  else .error .store

/-- Opcode `1100011`. -/
def decodeBranch (w : Word) : Except Reject Instr :=
  if funct3Of w = 0b000#3 then .ok (.beq (rs1Of w) (rs2Of w) (immBOf w))
  else if funct3Of w = 0b001#3 then .ok (.bne (rs1Of w) (rs2Of w) (immBOf w))
  else if funct3Of w = 0b100#3 then .ok (.blt (rs1Of w) (rs2Of w) (immBOf w))
  else if funct3Of w = 0b101#3 then .ok (.bge (rs1Of w) (rs2Of w) (immBOf w))
  else if funct3Of w = 0b110#3 then .ok (.bltu (rs1Of w) (rs2Of w) (immBOf w))
  else if funct3Of w = 0b111#3 then .ok (.bgeu (rs1Of w) (rs2Of w) (immBOf w))
  else .error .branch

/-- Opcode `1100111`: `jalr`, in the I format (R93). -/
def decodeJalr (w : Word) : Except Reject Instr :=
  if funct3Of w = 0b000#3 then .ok (.jalr (rdOf w) (rs1Of w) (immIOf w)) else .error .jalr

/-- Opcode `1110011`: `ecall` and `ebreak` are matched on all 32 bits (R87). -/
def decodeSystem (w : Word) : Except Reject Instr :=
  if w = 0x00000073#32 then .ok .ecall
  else if w = 0x00100073#32 then .ok .ebreak
  else .error .system

/-- `decode` of R84: total on 32-bit words; the major opcode first, then every minor field of its row in R85. -/
def decode (w : Word) : Except Reject Instr :=
  if opcodeOf w = 0b0110011#7 then decodeR w
  else if opcodeOf w = 0b0010011#7 then decodeImm w
  else if opcodeOf w = 0b0000011#7 then decodeLoad w
  else if opcodeOf w = 0b1110011#7 then decodeSystem w
  else if opcodeOf w = 0b0100011#7 then decodeStore w
  else if opcodeOf w = 0b1100011#7 then decodeBranch w
  else if opcodeOf w = 0b1101111#7 then .ok (.jal (rdOf w) (immJOf w))
  else if opcodeOf w = 0b1100111#7 then decodeJalr w
  else if opcodeOf w = 0b0110111#7 then .ok (.lui (rdOf w) (immUOf w))
  else if opcodeOf w = 0b0010111#7 then .ok (.auipc (rdOf w) (immUOf w))
  else .error .opcode

/-! ## Words and bytes (R46: instruction fetch is little-endian) -/

/-- The word `b3 || b2 || b1 || b0`, `b0` the byte at the lowest address (R46). -/
def wordOfBytes (b0 b1 b2 b3 : Byte) : Word := b3 ++ b2 ++ b1 ++ b0

/-- The four bytes of a word, lowest address first (R46). -/
def bytesOfWord (w : Word) : List Byte :=
  [w.extractLsb' 0 8, w.extractLsb' 8 8, w.extractLsb' 16 8, w.extractLsb' 24 8]

/-- The instruction at the head of a string of bytes, with the bytes after it (R46, R70). -/
def decodeBytes : List Byte → Except Reject (Instr × List Byte)
  | b0 :: b1 :: b2 :: b3 :: rest =>
    match decode (wordOfBytes b0 b1 b2 b3) with
    | .ok i => .ok (i, rest)
    | .error r => .error r
  | _ => .error .tooShort

/-- The word whose low `nbits` bits are those of `w`, every bit above them zero. -/
def tableWord (nbits w : Nat) : Word := BitVec.ofNat 32 (w % 2 ^ nbits)

/-- What the decoder reads from an instruction whose bits, numbered as spec/opcode_table.json numbers them, are `w`:
the word is laid out as the hardware stores it and given to `decodeBytes`. -/
def decodeTableWord (nbits w : Nat) : Option Instr :=
  match decodeBytes (bytesOfWord (tableWord nbits w)) with
  | .ok (i, _) => some i
  | .error _ => none

/-! ## The encoder (R72 to R77) -/

/-- R format (R72); with `shamt` for `rs2`, the shift variant of the I format (R78). -/
def encodeR (f7 : BitVec 7) (f3 : BitVec 3) (op : BitVec 7) (rd rs1 rs2 : RegIdx) : Word :=
  f7 ++ rs2 ++ rs1 ++ f3 ++ rd ++ op

/-- I format (R73). -/
def encodeI (f3 : BitVec 3) (op : BitVec 7) (rd rs1 : RegIdx) (imm : BitVec 12) : Word :=
  imm ++ rs1 ++ f3 ++ rd ++ op

/-- S format (R74). -/
def encodeS (f3 : BitVec 3) (op : BitVec 7) (rs1 rs2 : RegIdx) (imm : BitVec 12) : Word :=
  imm.extractLsb' 5 7 ++ rs2 ++ rs1 ++ f3 ++ imm.extractLsb' 0 5 ++ op

/-- B format (R75). -/
def encodeB (f3 : BitVec 3) (op : BitVec 7) (rs1 rs2 : RegIdx) (off : BitVec 13) : Word :=
  off.extractLsb' 12 1 ++ off.extractLsb' 5 6 ++ rs2 ++ rs1 ++ f3 ++ off.extractLsb' 1 4 ++ off.extractLsb' 11 1 ++ op

/-- J format (R76). -/
def encodeJ (op : BitVec 7) (rd : RegIdx) (off : BitVec 21) : Word :=
  off.extractLsb' 20 1 ++ off.extractLsb' 1 10 ++ off.extractLsb' 11 1 ++ off.extractLsb' 12 8 ++ rd ++ op

/-- U format (R77). -/
def encodeU (op : BitVec 7) (rd : RegIdx) (imm : BitVec 20) : Word := imm ++ rd ++ op

/-- The word of a well-formed instruction (R72 to R78, R85, R87). -/
def encode : Instr → Word
  | .add rd rs1 rs2 => encodeR 0x00#7 0b000#3 0b0110011#7 rd rs1 rs2
  | .mul rd rs1 rs2 => encodeR 0x01#7 0b000#3 0b0110011#7 rd rs1 rs2
  | .addu rd rs1 rs2 => encodeR 0x02#7 0b000#3 0b0110011#7 rd rs1 rs2
  | .sub rd rs1 rs2 => encodeR 0x20#7 0b000#3 0b0110011#7 rd rs1 rs2
  | .subu rd rs1 rs2 => encodeR 0x04#7 0b000#3 0b0110011#7 rd rs1 rs2
  | .sll rd rs1 rs2 => encodeR 0x00#7 0b001#3 0b0110011#7 rd rs1 rs2
  | .slt rd rs1 rs2 => encodeR 0x00#7 0b010#3 0b0110011#7 rd rs1 rs2
  | .sltu rd rs1 rs2 => encodeR 0x00#7 0b011#3 0b0110011#7 rd rs1 rs2
  | .xor rd rs1 rs2 => encodeR 0x00#7 0b100#3 0b0110011#7 rd rs1 rs2
  | .div rd rs1 rs2 => encodeR 0x01#7 0b100#3 0b0110011#7 rd rs1 rs2
  | .srl rd rs1 rs2 => encodeR 0x00#7 0b101#3 0b0110011#7 rd rs1 rs2
  | .sra rd rs1 rs2 => encodeR 0x20#7 0b101#3 0b0110011#7 rd rs1 rs2
  | .or rd rs1 rs2 => encodeR 0x00#7 0b110#3 0b0110011#7 rd rs1 rs2
  | .rem rd rs1 rs2 => encodeR 0x01#7 0b110#3 0b0110011#7 rd rs1 rs2
  | .and rd rs1 rs2 => encodeR 0x00#7 0b111#3 0b0110011#7 rd rs1 rs2
  | .addi rd rs1 imm => encodeI 0b000#3 0b0010011#7 rd rs1 imm
  | .slli rd rs1 shamt => encodeR 0x00#7 0b001#3 0b0010011#7 rd rs1 shamt
  | .slti rd rs1 imm => encodeI 0b010#3 0b0010011#7 rd rs1 imm
  | .sltiu rd rs1 imm => encodeI 0b011#3 0b0010011#7 rd rs1 imm
  | .xori rd rs1 imm => encodeI 0b100#3 0b0010011#7 rd rs1 imm
  | .srli rd rs1 shamt => encodeR 0x00#7 0b101#3 0b0010011#7 rd rs1 shamt
  | .srai rd rs1 shamt => encodeR 0x20#7 0b101#3 0b0010011#7 rd rs1 shamt
  | .ori rd rs1 imm => encodeI 0b110#3 0b0010011#7 rd rs1 imm
  | .andi rd rs1 imm => encodeI 0b111#3 0b0010011#7 rd rs1 imm
  | .lb rd rs1 imm => encodeI 0b000#3 0b0000011#7 rd rs1 imm
  | .lh rd rs1 imm => encodeI 0b001#3 0b0000011#7 rd rs1 imm
  | .lw rd rs1 imm => encodeI 0b010#3 0b0000011#7 rd rs1 imm
  | .lbu rd rs1 imm => encodeI 0b100#3 0b0000011#7 rd rs1 imm
  | .lhu rd rs1 imm => encodeI 0b101#3 0b0000011#7 rd rs1 imm
  | .ecall => encodeI 0b000#3 0b1110011#7 0#5 0#5 0#12
  | .ebreak => encodeI 0b000#3 0b1110011#7 0#5 0#5 1#12
  | .sb rs1 rs2 imm => encodeS 0b000#3 0b0100011#7 rs1 rs2 imm
  | .sh rs1 rs2 imm => encodeS 0b001#3 0b0100011#7 rs1 rs2 imm
  | .sw rs1 rs2 imm => encodeS 0b010#3 0b0100011#7 rs1 rs2 imm
  | .beq rs1 rs2 off => encodeB 0b000#3 0b1100011#7 rs1 rs2 off
  | .bne rs1 rs2 off => encodeB 0b001#3 0b1100011#7 rs1 rs2 off
  | .blt rs1 rs2 off => encodeB 0b100#3 0b1100011#7 rs1 rs2 off
  | .bge rs1 rs2 off => encodeB 0b101#3 0b1100011#7 rs1 rs2 off
  | .bltu rs1 rs2 off => encodeB 0b110#3 0b1100011#7 rs1 rs2 off
  | .bgeu rs1 rs2 off => encodeB 0b111#3 0b1100011#7 rs1 rs2 off
  | .jal rd off => encodeJ 0b1101111#7 rd off
  | .jalr rd rs1 imm => encodeI 0b000#3 0b1100111#7 rd rs1 imm
  | .lui rd imm => encodeU 0b0110111#7 rd imm
  | .auipc rd imm => encodeU 0b0010111#7 rd imm

/-! ## The opcode table's rows (95_test_vectors.md section 2.1) -/

/-- A row of the table: `w` is the row's instruction exactly when `w &&& mask = value` (95_test_vectors.md 2.1). -/
structure OpcodeRow where
  value : Word
  mask : Word
deriving DecidableEq, Repr

/-- The match and mask of the instruction's row, as the rules R101 to R192 print them. -/
def opcodeRow : Instr → OpcodeRow
  | .add .. => ⟨0x00000033#32, 0xFE00707F#32⟩
  | .mul .. => ⟨0x02000033#32, 0xFE00707F#32⟩
  | .addu .. => ⟨0x04000033#32, 0xFE00707F#32⟩
  | .sub .. => ⟨0x40000033#32, 0xFE00707F#32⟩
  | .subu .. => ⟨0x08000033#32, 0xFE00707F#32⟩
  | .sll .. => ⟨0x00001033#32, 0xFE00707F#32⟩
  | .slt .. => ⟨0x00002033#32, 0xFE00707F#32⟩
  | .sltu .. => ⟨0x00003033#32, 0xFE00707F#32⟩
  | .xor .. => ⟨0x00004033#32, 0xFE00707F#32⟩
  | .div .. => ⟨0x02004033#32, 0xFE00707F#32⟩
  | .srl .. => ⟨0x00005033#32, 0xFE00707F#32⟩
  | .sra .. => ⟨0x40005033#32, 0xFE00707F#32⟩
  | .or .. => ⟨0x00006033#32, 0xFE00707F#32⟩
  | .rem .. => ⟨0x02006033#32, 0xFE00707F#32⟩
  | .and .. => ⟨0x00007033#32, 0xFE00707F#32⟩
  | .addi .. => ⟨0x00000013#32, 0x0000707F#32⟩
  | .slli .. => ⟨0x00001013#32, 0xFE00707F#32⟩
  | .slti .. => ⟨0x00002013#32, 0x0000707F#32⟩
  | .sltiu .. => ⟨0x00003013#32, 0x0000707F#32⟩
  | .xori .. => ⟨0x00004013#32, 0x0000707F#32⟩
  | .srli .. => ⟨0x00005013#32, 0xFE00707F#32⟩
  | .srai .. => ⟨0x40005013#32, 0xFE00707F#32⟩
  | .ori .. => ⟨0x00006013#32, 0x0000707F#32⟩
  | .andi .. => ⟨0x00007013#32, 0x0000707F#32⟩
  | .lb .. => ⟨0x00000003#32, 0x0000707F#32⟩
  | .lh .. => ⟨0x00001003#32, 0x0000707F#32⟩
  | .lw .. => ⟨0x00002003#32, 0x0000707F#32⟩
  | .lbu .. => ⟨0x00004003#32, 0x0000707F#32⟩
  | .lhu .. => ⟨0x00005003#32, 0x0000707F#32⟩
  | .ecall => ⟨0x00000073#32, 0xFFFFFFFF#32⟩
  | .ebreak => ⟨0x00100073#32, 0xFFFFFFFF#32⟩
  | .sb .. => ⟨0x00000023#32, 0x0000707F#32⟩
  | .sh .. => ⟨0x00001023#32, 0x0000707F#32⟩
  | .sw .. => ⟨0x00002023#32, 0x0000707F#32⟩
  | .beq .. => ⟨0x00000063#32, 0x0000707F#32⟩
  | .bne .. => ⟨0x00001063#32, 0x0000707F#32⟩
  | .blt .. => ⟨0x00004063#32, 0x0000707F#32⟩
  | .bge .. => ⟨0x00005063#32, 0x0000707F#32⟩
  | .bltu .. => ⟨0x00006063#32, 0x0000707F#32⟩
  | .bgeu .. => ⟨0x00007063#32, 0x0000707F#32⟩
  | .jal .. => ⟨0x0000006F#32, 0x0000007F#32⟩
  | .jalr .. => ⟨0x00000067#32, 0x0000707F#32⟩
  | .lui .. => ⟨0x00000037#32, 0x0000007F#32⟩
  | .auipc .. => ⟨0x00000017#32, 0x0000007F#32⟩

end Sys2Proof
end

