-- ==== Sys2Proof/Machine/Flags.lean ====
section
/-! DEFINITION. The conditions an instruction tests. The machine has no flags (10_state.md R28): a comparison's result goes
to a register or is used inside a branch, and overflow is recorded nowhere. -/

namespace Sys2Proof.Machine

/-- `a <s b` (R10). -/
def ltS (a b : Word) : Bool := decide (a.toInt < b.toInt)

/-- `a <u b` (R10). -/
def ltU (a b : Word) : Bool := decide (a.toNat < b.toNat)

/-- The mathematical value does not fit 32 bits as a signed number (R101, R104, R121). -/
def outsideSigned (r : Int) : Bool := decide (r > 2 ^ 31 - 1) || decide (r < -2 ^ 31)

/-- Signed overflow of `a + b` (R101, R121). -/
def addOverflows (a b : Word) : Bool := outsideSigned (a.toInt + b.toInt)

/-- Signed overflow of `a - b` (R104). -/
def subOverflows (a b : Word) : Bool := outsideSigned (a.toInt - b.toInt)

/-- `zext_32` of a one-bit comparison result (R107, R108, R123, R124). -/
def boolWord (c : Bool) : Word := if c then 1#32 else 0#32

end Sys2Proof.Machine
end

