-- ==== Sys2Proof/Config.lean ====
section
/-! DEFINITION. What the spec leaves to the implementation (00_scope.md R8, 92_eei_decisions.md): the settings a run
is given, the defaults `State.reset` takes, and the free values of division. -/

namespace Sys2Proof

/-- `OVERFLOW_POLICY` (R8, R116, D7): what `add`, `sub` and `addi` do when the signed result does not fit 32 bits. -/
inductive OverflowPolicy where
  /-- The default: the result is taken modulo `2^32` and nothing is raised. -/
  | wrap
  /-- The non-default setting: `ArithmeticOverflow` is raised and nothing is written (R211). -/
  | fault
deriving DecidableEq, Repr

/-- `SLTIU_IMM_EXT` (R8, R124, D9): how `sltiu` widens its 12-bit immediate before the unsigned comparison. -/
inductive SltiuImmExt where
  /-- The default: `sext_32`. -/
  | sign
  /-- The non-default setting: `zext_32`. -/
  | zero
deriving DecidableEq, Repr

/-- A block of `size` byte addresses from `base` up. `MEM_MAP` (R8, R41) is a list of such blocks, which can name any
set of 32-bit addresses. -/
structure Region where
  base : Nat
  size : Nat
deriving DecidableEq, Repr

namespace Config

/-- `DIV_ZERO(a)` (R118, U1): what `div` writes when the divisor is zero. A free value (note 1): any 32-bit value,
depending on the operand alone. -/
opaque divZero : Word → Word

/-- `REM_ZERO(a)` (R118, U2): what `rem` writes when the divisor is zero. A free value (note 1). -/
opaque remZero : Word → Word

/-- `DIV_OVF` (R118, U3): what `div` writes at `-2^31 / -1`. A free value (note 1). -/
opaque divOvf : Word

/-- `REM_OVF` (R118, U4): what `rem` writes at `-2^31 % -1`. A free value (note 1). -/
opaque remOvf : Word

/-- `RESET_PC` as `State.reset` takes it: the spec's suggested `0x00000000` (R8, R35; DESIGN CHOICE, note 3). -/
def resetPc : Word := 0x00000000#32

/-- `REG_INIT` as `State.reset` takes it, `x1` first: all zero (R34 gives no value; DESIGN CHOICE, note 2). -/
def regInit : Vector Word 31 := Vector.replicate 31 0#32

/-- `MEM_MAP` as `State.reset` takes it: the whole 32-bit address space (R41 leaves it open; DESIGN CHOICE, note 4).
The program text is taken out of it wherever it is used (R42, `Machine.mapped`). -/
def memMap : List Region := [⟨0, 2 ^ 32⟩]

end Config
end Sys2Proof
end

