-- ==== Sys2Proof/Machine/Operands.lean ====
section
/-! DEFINITION. The operand forms: how an instruction's fields become the 32-bit values its pseudocode uses
(30_encoding.md section 3, 41_r_type.md R119). -/

namespace Sys2Proof.Machine

/-- `immI` (R79) and `immS` (R80): a 12-bit field, sign-extended. -/
def sext12 (imm : BitVec 12) : Word := imm.signExtend 32

/-- `immB` (R81): the 13-bit byte offset, sign-extended. -/
def immB (off : BitVec 13) : Word := off.signExtend 32

/-- `immJ` (R82): the 21-bit byte offset, sign-extended. -/
def immJ (off : BitVec 21) : Word := off.signExtend 32

/-- `immU` (R83): the 20-bit field in the high bits, twelve zero bits below. -/
def immU (imm : BitVec 20) : Word := imm ++ 0#12

/-- The immediate `sltiu` compares with: `SLTIU_IMM_EXT` says how the 12-bit field is widened (R124). -/
def sltiuImm (ext : SltiuImmExt) (imm : BitVec 12) : Word :=
  match ext with
  | .sign => imm.signExtend 32
  | .zero => imm.zeroExtend 32

/-- The amount of a shift by a register: the low five bits of `x[rs2]` (R119; `SHIFT_BY_REG` has no other value). -/
def shiftByReg (b : Word) : Nat := (b.extractLsb' 0 5).toNat

/-- The amount of a shift by an immediate (R78). -/
def shiftByImm (shamt : BitVec 5) : Nat := shamt.toNat

end Sys2Proof.Machine
end

