-- ==== Sys2Proof/Machine/Cells.lean ====
section
/-! DEFINITION. Sparse data by address: a list of (address, value) pairs with addresses strictly rising, so that equal
maps are equal lists. Data memory and the program text are both held so. -/

namespace Sys2Proof.Machine

/-- The value at address `a`, or none where nothing is listed. -/
def cellsFind {β : Type} : List (Nat × β) → Nat → Option β
  | [], _ => none
  | (k, v) :: rest, a => if k = a then some v else cellsFind rest a

/-- The map with `v` at address `a`, the list kept in rising order. -/
def cellsInsert {β : Type} : List (Nat × β) → Nat → β → List (Nat × β)
  | [], a, v => [(a, v)]
  | (k, w) :: rest, a, v =>
    if a < k then (a, v) :: (k, w) :: rest
    else if a = k then (a, v) :: rest
    else (k, w) :: cellsInsert rest a v

/-- Every listed address is above `lo`, and the addresses rise strictly. -/
def cellsAbove {β : Type} : Nat → List (Nat × β) → Bool
  | _, [] => true
  | lo, (k, _) :: rest => decide (lo < k) && cellsAbove k rest

/-- The addresses rise strictly. -/
def cellsRising {β : Type} : List (Nat × β) → Bool
  | [] => true
  | (k, _) :: rest => cellsAbove k rest

end Sys2Proof.Machine
end

