-- ==== Sys2Proof/Machine/State.lean ====
section
/-! DEFINITION. The machine's state (10_state.md R20), the reasons a step can stop (60_exceptions.md R200), and the state
right after reset (70_reset_and_hazards.md R230). -/

namespace Sys2Proof.Machine

/-- Data memory `Mem` (R31, R41): the bytes that hold a value, by address. The canonical form is `Memory.wf`
(Machine/Ops.lean); an address that is not listed holds no value (R36). -/
abbrev Memory := List Host.Cell

/-- The program text `PROG` (R31, R42): some 4-aligned addresses and the instruction word at each. -/
abbrev Prog := List (Nat × Word)

/-- The parameters of a run that a step looks at (R8). They are not the machine's state (R20): no instruction changes
them. They stand in `State` so that every statement about all states holds for every value of them (note 5). -/
structure Params where
  /-- `PROG`: the program text (R42). -/
  prog : Prog
  /-- `MEM_MAP`: the blocks that make up data memory, less the bytes of the program text (R41, R42). -/
  memMap : List Region
  /-- `OVERFLOW_POLICY` (R116). -/
  overflowPolicy : OverflowPolicy
  /-- `SLTIU_IMM_EXT` (R124). -/
  sltiuImmExt : SltiuImmExt
deriving DecidableEq, Repr

/-- The state: the triple `(x[1..31], pc, Mem)` of R20, and the run's parameters beside it. Register `x0` holds no
state (R22), so it has no place here. -/
structure State where
  /-- `x1` to `x31`, in order: register `i` stands at index `i - 1` (R20, R21). -/
  regs : Vector Word 31
  /-- The program counter (R24). -/
  pc : Word
  /-- Data memory (R31). -/
  mem : Memory
  /-- The parameters of the run (R8). -/
  params : Params
deriving DecidableEq, Repr

/-- The outcomes of R200 that stop the machine, but for `Breakpoint` (a refusal, R223) and `UnwrittenRegister` (every
register holds a value here, note 2). The state is the one before the instruction (R13, R214). Every one is safe: where the
hardware goes on, the model says nothing. `environmentCall` is the proper end of a run (R236), the others are faults (R223). -/
inductive Fault where
  /-- A taken branch, `jal` or `jalr` whose target is not a multiple of 4, or the fetch at such a pc; carries that
  address (R203). Safe. -/
  | instructionAddressMisaligned (addr : Word)
  /-- The fetch at a pc outside `PROG` (R204). Safe. -/
  | fetchFault (pc : Word)
  /-- A fetched word of no row of the opcode table (R86, R202). Safe. -/
  | illegalInstruction (pc inst : Word)
  /-- `lh`, `lhu` or `lw` at an address that is not a multiple of its size (R205). Safe. -/
  | loadAddressMisaligned (addr : Word)
  /-- A load with a byte outside `MEM_MAP`, the program text included (R207). Safe. -/
  | loadAccessFault (addr : Word)
  /-- `sh` or `sw` at an address that is not a multiple of its size (R206). Safe. -/
  | storeAddressMisaligned (addr : Word)
  /-- A store with a byte outside `MEM_MAP`, the program text included (R208). Safe. -/
  | storeAccessFault (addr : Word)
  /-- `ecall`, always: control leaves the machine for the OS and the run ends properly (R151, R209, R236). Safe: nothing
  is said of what follows. -/
  | environmentCall (pc : Word)
  /-- `add`, `sub` or `addi` on signed overflow, only under `OVERFLOW_POLICY = fault` (R211). Safe. -/
  | arithmeticOverflow (pc : Word)
  /-- A load of a byte that holds no value; carries the effective address (R36, R44, R146). Safe. -/
  | uninitialisedRead (addr : Word)
deriving DecidableEq, Repr

/-- Why the model gives an instruction no meaning. -/
inductive Refusal where
  /-- `ebreak`, always: `Breakpoint(pc)` of R210. The spec has a model refuse it (R152, R223). Safe. -/
  | breakpoint (pc : Word)
  /-- An instruction without a meaning yet; no arm of `exec` answers it. Safe. -/
  | notModelled (mnemonic : String)
deriving DecidableEq, Repr

/-- The outcome of a step (R17). -/
abbrev Out := Host.Outcome State Fault Refusal

/-- The state after reset for a run whose environment gives these parameters (R230): `x1` to `x31` from `REG_INIT`
(R34), the pc at `RESET_PC` (R35), data memory holding `MEM_INIT` (R36). -/
def State.resetWith (params : Params) (resetPc : Word) (regInit : Vector Word 31) (memInit : Memory) : State :=
  { regs := regInit, pc := resetPc, mem := memInit, params := params }

/-- The state after reset that the model names: every parameter at the spec's default where it gives one, an empty
`PROG` and `MEM_INIT`, and the design choices of Config.lean (R230, notes 2 to 5). -/
def State.reset : State :=
  State.resetWith
    { prog := [], memMap := Config.memMap, overflowPolicy := .wrap, sltiuImmExt := .sign }
    Config.resetPc Config.regInit []

end Sys2Proof.Machine
end

