-- ==== Sys2Proof/Machine/Ops.lean ====
section
/-! DEFINITION. The named operations over registers, memory, program text and pc, and raising an exception
(00_scope.md R11 to R14, 20_memory.md R41 to R46, 60_exceptions.md R214). -/

namespace Sys2Proof.Machine

/-! ## Raising an exception (R13, R214) -/

/-- `raise E(info)`: there is no trap entry; the run ends with the state as it was before the instruction, and the outcome
is reported (R13, R214). There is no return from a trap either (R215), so nothing stands beside this. -/
def raise (e : Fault) : Out := .fault e

/-- Go on with a value, or raise. -/
def orRaise {α : Type} (r : Except Fault α) (k : α → Out) : Out :=
  match r with
  | .ok a => k a
  | .error e => raise e

/-! ## Registers (R11, R22) -/

/-- `x[i]`: zero for `x0`, else the register's content (R11). -/
def readReg (s : State) (i : RegIdx) : Word :=
  if h : i.toNat = 0 then 0#32 else s.regs[i.toNat - 1]'(by have := i.isLt; omega)

/-- `x[i] <- v`: nothing for `x0` (R11). -/
def writeReg (s : State) (i : RegIdx) (v : Word) : State :=
  if h : i.toNat = 0 then s else { s with regs := s.regs.set (i.toNat - 1) v (by have := i.isLt; omega) }

/-! ## The pc (R14, R26, R27) -/

/-- `pc <- target` (R14). -/
def setPc (s : State) (target : Word) : State := { s with pc := target }

/-- `pc <- pc + 4`, modulo `2^32` (R26). -/
def advance (s : State) : State := setPc s (s.pc + 4#32)

/-- `a[1:0] = 0`: an address an instruction may stand at (R25, R48). -/
def aligned4 (a : Word) : Bool := decide (a.extractLsb' 0 2 = 0#2)

/-! ## Data memory (R40 to R45) -/

/-- The canonical form of data memory: addresses strictly rising, each a 32-bit address. -/
def Memory.wf (m : Memory) : Bool := cellsRising m && m.all (fun c => decide (c.1 < 2 ^ 32))

/-- The byte at an address, or none where it holds no value (R36, R41). -/
def readByte (s : State) (a : Nat) : Option Byte := cellsFind s.mem a

/-- The address is one of the block's. -/
def regionHas (r : Region) (a : Nat) : Bool := decide (r.base ≤ a) && decide (a < r.base + r.size)

/-- The address is in the text range: one of the four bytes of a word of `PROG` (R42). -/
def inText (p : Prog) (a : Nat) : Bool := p.any (fun c => decide (c.1 ≤ a) && decide (a < c.1 + 4))

/-- The address is in `MEM_MAP`, which is disjoint from the text range (R41, R42). -/
def mapped (s : State) (a : Nat) : Bool := s.params.memMap.any (regionHas · a) && !inText s.params.prog a

/-- Every byte of an access of `n` bytes is in `MEM_MAP`. -/
def allMapped (s : State) (a n : Nat) : Bool := (List.range' a n).all (mapped s)

/-- The bytes at `a` to `a + n - 1`, or none where one of them holds no value. -/
def readBytes (m : Memory) (a : Nat) : Nat → Option (List Byte)
  | 0 => some []
  | n + 1 =>
    match cellsFind m a, readBytes m (a + 1) n with
    | some b, some bs => some (b :: bs)
    | _, _ => none

/-- The number whose bytes these are, least significant first (R44: little-endian). -/
def leNat : List Byte → Nat
  | [] => 0
  | b :: bs => b.toNat + 256 * leNat bs

/-- Memory with these bytes from `a` up. -/
def writeBytes (m : Memory) (a : Nat) : List Byte → Memory
  | [] => m
  | b :: bs => writeBytes (cellsInsert m a b) (a + 1) bs

/-- The `n` low bytes of a value, least significant first: byte `k` is `v[8k+7:8k]` (R45). -/
def leBytes {w : Nat} (v : BitVec w) (n : Nat) : List Byte := (List.range n).map (fun k => v.extractLsb' (8 * k) 8)

/-- `MemRead(addr, n)` (R44), for `n` in 1, 2, 4. -/
def memRead (s : State) (addr : Word) (n : Nat) : Except Fault (BitVec (8 * n)) :=
  if addr.toNat % n ≠ 0 then .error (.loadAddressMisaligned addr)
  else if !allMapped s addr.toNat n then .error (.loadAccessFault addr)
  else match readBytes s.mem addr.toNat n with
    | none => .error (.uninitialisedRead addr)
    | some bs => .ok (BitVec.ofNat (8 * n) (leNat bs))

/-- `MemWrite(addr, n, v)` (R45), for `n` in 1, 2, 4: all `n` bytes or, when a check raises, none. -/
def memWrite (s : State) (addr : Word) (n : Nat) (v : BitVec (8 * n)) : Except Fault State :=
  if addr.toNat % n ≠ 0 then .error (.storeAddressMisaligned addr)
  else if !allMapped s addr.toNat n then .error (.storeAccessFault addr)
  else .ok { s with mem := writeBytes s.mem addr.toNat (leBytes v n) }

/-! ## Program text (R42, R46) -/

/-- `Fetch(addr)` (R46). -/
def fetch (s : State) (addr : Word) : Except Fault Word :=
  match cellsFind s.params.prog addr.toNat with
  | none => .error (.fetchFault addr)
  | some inst => .ok inst

/-- The state with this word of program text at `addr`: a program placed by the environment before the run (R232). -/
def placeWord (s : State) (addr inst : Word) : State :=
  { s with params := { s.params with prog := cellsInsert s.params.prog addr.toNat inst } }

/-! ## The shapes of the instructions -/

/-- `x[rd] <- v`, then `pc <- pc + 4` (R26, R100, R120, R190). -/
def writeBack (s : State) (rd : RegIdx) (v : Word) : Out := .next (advance (writeReg s rd v))

/-- The write of `add`, `sub` and `addi`: under `OVERFLOW_POLICY = fault` a signed overflow raises
`ArithmeticOverflow(pc)` and nothing is written; under `wrap` it is ignored (R116, R211). -/
def writeBackChecked (s : State) (rd : RegIdx) (overflow : Bool) (v : Word) : Out :=
  match s.params.overflowPolicy, overflow with
  | .fault, true => raise (.arithmeticOverflow s.pc)
  | .fault, false => writeBack s rd v
  | .wrap, _ => writeBack s rd v

/-- A load of `n` bytes at `x[rs1] + offset`, modulo `2^32`, widened into `x[rd]` (R49, R140). -/
def load (s : State) (rd rs1 : RegIdx) (offset : Word) (n : Nat) (widen : BitVec (8 * n) → Word) : Out :=
  orRaise (memRead s (readReg s rs1 + offset) n) (fun v => writeBack s rd (widen v))

/-- A store of the low `n` bytes of `x[rs2]` at `x[rs1] + offset`, modulo `2^32` (R49, R160). -/
def store (s : State) (rs1 rs2 : RegIdx) (offset : Word) (n : Nat) : Out :=
  orRaise (memWrite s (readReg s rs1 + offset) n ((readReg s rs2).setWidth (8 * n))) (fun t => .next (advance t))

/-- A conditional branch (R170): the target is checked only when the branch is taken. -/
def branch (s : State) (taken : Bool) (offset : Word) : Out :=
  if taken then
    if aligned4 (s.pc + offset) then .next (setPc s (s.pc + offset))
    else raise (.instructionAddressMisaligned (s.pc + offset))
  else .next (advance s)

/-- A jump that links (R180): the check first, then `x[rd] <- pc + 4`, then `pc <- target`. -/
def jumpAndLink (s : State) (rd : RegIdx) (target : Word) : Out :=
  if aligned4 target then .next (setPc (writeReg s rd (s.pc + 4#32)) target)
  else raise (.instructionAddressMisaligned target)

end Sys2Proof.Machine
end

