-- ==== Sys2Proof/Machine/Branch.lean ====
section
/-! DEFINITION. The meanings of the six branches (46_b_type.md R170 to R177). -/

namespace Sys2Proof.Machine

/-- `beq` (R171). -/
def execBeq (rs1 rs2 : RegIdx) (off : BitVec 13) (s : State) : Out :=
  branch s (decide (readReg s rs1 = readReg s rs2)) (immB off)

/-- `bne` (R172). -/
def execBne (rs1 rs2 : RegIdx) (off : BitVec 13) (s : State) : Out :=
  branch s (decide (readReg s rs1 ≠ readReg s rs2)) (immB off)

/-- `blt` (R173): signed. -/
def execBlt (rs1 rs2 : RegIdx) (off : BitVec 13) (s : State) : Out :=
  branch s (ltS (readReg s rs1) (readReg s rs2)) (immB off)

/-- `bge` (R174): signed. -/
def execBge (rs1 rs2 : RegIdx) (off : BitVec 13) (s : State) : Out :=
  branch s (!ltS (readReg s rs1) (readReg s rs2)) (immB off)

/-- `bltu` (R175): unsigned. -/
def execBltu (rs1 rs2 : RegIdx) (off : BitVec 13) (s : State) : Out :=
  branch s (ltU (readReg s rs1) (readReg s rs2)) (immB off)

/-- `bgeu` (R176): unsigned. -/
def execBgeu (rs1 rs2 : RegIdx) (off : BitVec 13) (s : State) : Out :=
  branch s (!ltU (readReg s rs1) (readReg s rs2)) (immB off)

end Sys2Proof.Machine
end

