-- ==== Sys2Proof/Machine/Alu.lean ====
section
/-! DEFINITION. The arithmetic that the R and I instructions share, and signed division (41_r_type.md section 2). -/

namespace Sys2Proof.Machine

/-- `(a << n)[31:0]`: zeros enter at bit 0 (R106, R122). -/
def shiftLeft (a : Word) (n : Nat) : Word := a <<< n

/-- `unsigned(a) >> n`: zeros enter at bit 31 (R111, R126). -/
def shiftRightLogical (a : Word) (n : Nat) : Word := a >>> n

/-- `sext_32(a[31:n])`: copies of bit 31 enter (R112, R127). -/
def shiftRightArith (a : Word) (n : Nat) : Word := a.sshiftRight n

/-- The quotient `Q` of R118, rounded toward zero; meant for a divisor that is not zero. -/
def quotient (a b : Word) : Int := Int.tdiv a.toInt b.toInt

/-- The one overflowing division, `-2^31` by `-1` (R118). -/
def divOverflows (a b : Word) : Bool := decide (a = 0x80000000#32) && decide (b = 0xFFFFFFFF#32)

/-- What `div` writes (R110, R118). -/
def divResult (a b : Word) : Word :=
  if b = 0#32 then Config.divZero a
  else if divOverflows a b then Config.divOvf
  else BitVec.ofInt 32 (quotient a b)

/-- What `rem` writes (R114, R118). -/
def remResult (a b : Word) : Word :=
  if b = 0#32 then Config.remZero a
  else if divOverflows a b then Config.remOvf
  else BitVec.ofInt 32 (a.toInt - quotient a b * b.toInt)

end Sys2Proof.Machine
end

