-- ==== Sys2Proof/Machine/ImmAlu.lean ====
section
/-! DEFINITION. The meanings of the nine register-immediate instructions (42_i_type_alu.md R120 to R129). -/

namespace Sys2Proof.Machine

/-- `addi` (R121). -/
def execAddi (rd rs1 : RegIdx) (imm : BitVec 12) (s : State) : Out :=
  writeBackChecked s rd (addOverflows (readReg s rs1) (sext12 imm)) (readReg s rs1 + sext12 imm)

/-- `slli` (R122). -/
def execSlli (rd rs1 : RegIdx) (shamt : BitVec 5) (s : State) : Out :=
  writeBack s rd (shiftLeft (readReg s rs1) (shiftByImm shamt))

/-- `slti` (R123): signed. -/
def execSlti (rd rs1 : RegIdx) (imm : BitVec 12) (s : State) : Out :=
  writeBack s rd (boolWord (ltS (readReg s rs1) (sext12 imm)))

/-- `sltiu` (R124): unsigned, the immediate widened as `SLTIU_IMM_EXT` says. -/
def execSltiu (rd rs1 : RegIdx) (imm : BitVec 12) (s : State) : Out :=
  writeBack s rd (boolWord (ltU (readReg s rs1) (sltiuImm s.params.sltiuImmExt imm)))

/-- `xori` (R125). -/
def execXori (rd rs1 : RegIdx) (imm : BitVec 12) (s : State) : Out := writeBack s rd (readReg s rs1 ^^^ sext12 imm)

/-- `srli` (R126). -/
def execSrli (rd rs1 : RegIdx) (shamt : BitVec 5) (s : State) : Out :=
  writeBack s rd (shiftRightLogical (readReg s rs1) (shiftByImm shamt))

/-- `srai` (R127). -/
def execSrai (rd rs1 : RegIdx) (shamt : BitVec 5) (s : State) : Out :=
  writeBack s rd (shiftRightArith (readReg s rs1) (shiftByImm shamt))

/-- `ori` (R128). -/
def execOri (rd rs1 : RegIdx) (imm : BitVec 12) (s : State) : Out := writeBack s rd (readReg s rs1 ||| sext12 imm)

/-- `andi` (R129). -/
def execAndi (rd rs1 : RegIdx) (imm : BitVec 12) (s : State) : Out := writeBack s rd (readReg s rs1 &&& sext12 imm)

end Sys2Proof.Machine
end

