-- ==== Sys2Proof/Machine/Jump.lean ====
section
/-! DEFINITION. The meanings of `jal` and `jalr` (47_j_type.md R180 to R182). -/

namespace Sys2Proof.Machine

/-- `jal` (R181). -/
def execJal (rd : RegIdx) (off : BitVec 21) (s : State) : Out := jumpAndLink s rd (s.pc + immJ off)

/-- `jalr` (R182): the target is the sum bit for bit, read before `x[rd]` is written. -/
def execJalr (rd rs1 : RegIdx) (imm : BitVec 12) (s : State) : Out := jumpAndLink s rd (readReg s rs1 + sext12 imm)

end Sys2Proof.Machine
end

