-- ==== Sys2Proof/Machine/Load.lean ====
section
/-! DEFINITION. The meanings of the five loads (43_i_type_load.md R140 to R147). -/

namespace Sys2Proof.Machine

/-- `lb` (R141): one byte, sign-extended. -/
def execLb (rd rs1 : RegIdx) (imm : BitVec 12) (s : State) : Out :=
  load s rd rs1 (sext12 imm) 1 (fun v => v.signExtend 32)

/-- `lh` (R142): two bytes, sign-extended. -/
def execLh (rd rs1 : RegIdx) (imm : BitVec 12) (s : State) : Out :=
  load s rd rs1 (sext12 imm) 2 (fun v => v.signExtend 32)

/-- `lw` (R143): four bytes. -/
def execLw (rd rs1 : RegIdx) (imm : BitVec 12) (s : State) : Out :=
  load s rd rs1 (sext12 imm) 4 (fun v => v)

/-- `lbu` (R144): one byte, zero-extended. -/
def execLbu (rd rs1 : RegIdx) (imm : BitVec 12) (s : State) : Out :=
  load s rd rs1 (sext12 imm) 1 (fun v => v.zeroExtend 32)

/-- `lhu` (R145): two bytes, zero-extended. -/
def execLhu (rd rs1 : RegIdx) (imm : BitVec 12) (s : State) : Out :=
  load s rd rs1 (sext12 imm) 2 (fun v => v.zeroExtend 32)

end Sys2Proof.Machine
end

