-- ==== Sys2Proof/Machine/RType.lean ====
section
/-! DEFINITION. The meanings of the 15 R type instructions (41_r_type.md R100 to R119). -/

namespace Sys2Proof.Machine

/-- `add` (R101). -/
def execAdd (rd rs1 rs2 : RegIdx) (s : State) : Out :=
  writeBackChecked s rd (addOverflows (readReg s rs1) (readReg s rs2)) (readReg s rs1 + readReg s rs2)

/-- `mul` (R102): the low 32 bits of the product. -/
def execMul (rd rs1 rs2 : RegIdx) (s : State) : Out := writeBack s rd (readReg s rs1 * readReg s rs2)

/-- `addu` (R103): overflow is ignored under either policy. -/
def execAddu (rd rs1 rs2 : RegIdx) (s : State) : Out := writeBack s rd (readReg s rs1 + readReg s rs2)

/-- `sub` (R104). -/
def execSub (rd rs1 rs2 : RegIdx) (s : State) : Out :=
  writeBackChecked s rd (subOverflows (readReg s rs1) (readReg s rs2)) (readReg s rs1 - readReg s rs2)

/-- `subu` (R105): overflow is ignored under either policy. -/
def execSubu (rd rs1 rs2 : RegIdx) (s : State) : Out := writeBack s rd (readReg s rs1 - readReg s rs2)

/-- `sll` (R106). -/
def execSll (rd rs1 rs2 : RegIdx) (s : State) : Out :=
  writeBack s rd (shiftLeft (readReg s rs1) (shiftByReg (readReg s rs2)))

/-- `slt` (R107): signed. -/
def execSlt (rd rs1 rs2 : RegIdx) (s : State) : Out :=
  writeBack s rd (boolWord (ltS (readReg s rs1) (readReg s rs2)))

/-- `sltu` (R108): unsigned. -/
def execSltu (rd rs1 rs2 : RegIdx) (s : State) : Out :=
  writeBack s rd (boolWord (ltU (readReg s rs1) (readReg s rs2)))

/-- `xor` (R109). -/
def execXor (rd rs1 rs2 : RegIdx) (s : State) : Out := writeBack s rd (readReg s rs1 ^^^ readReg s rs2)

/-- `div` (R110): signed, toward zero, no exception; the two open cases write a free value. -/
def execDiv (rd rs1 rs2 : RegIdx) (s : State) : Out := writeBack s rd (divResult (readReg s rs1) (readReg s rs2))

/-- `srl` (R111). -/
def execSrl (rd rs1 rs2 : RegIdx) (s : State) : Out :=
  writeBack s rd (shiftRightLogical (readReg s rs1) (shiftByReg (readReg s rs2)))

/-- `sra` (R112). -/
def execSra (rd rs1 rs2 : RegIdx) (s : State) : Out :=
  writeBack s rd (shiftRightArith (readReg s rs1) (shiftByReg (readReg s rs2)))

/-- `or` (R113). -/
def execOr (rd rs1 rs2 : RegIdx) (s : State) : Out := writeBack s rd (readReg s rs1 ||| readReg s rs2)

/-- `rem` (R114): signed, the sign of the dividend, no exception; the two open cases write a free value. -/
def execRem (rd rs1 rs2 : RegIdx) (s : State) : Out := writeBack s rd (remResult (readReg s rs1) (readReg s rs2))

/-- `and` (R115). -/
def execAnd (rd rs1 rs2 : RegIdx) (s : State) : Out := writeBack s rd (readReg s rs1 &&& readReg s rs2)

end Sys2Proof.Machine
end

