-- ==== Sys2Proof/Machine/Store.lean ====
section
/-! DEFINITION. The meanings of the three stores (45_s_type.md R160 to R164). -/

namespace Sys2Proof.Machine

/-- `sb` (R161): the low byte of `x[rs2]`. -/
def execSb (rs1 rs2 : RegIdx) (imm : BitVec 12) (s : State) : Out := store s rs1 rs2 (sext12 imm) 1

/-- `sh` (R162): the low two bytes of `x[rs2]`. -/
def execSh (rs1 rs2 : RegIdx) (imm : BitVec 12) (s : State) : Out := store s rs1 rs2 (sext12 imm) 2

/-- `sw` (R163): the four bytes of `x[rs2]`. -/
def execSw (rs1 rs2 : RegIdx) (imm : BitVec 12) (s : State) : Out := store s rs1 rs2 (sext12 imm) 4

end Sys2Proof.Machine
end

