-- ==== Sys2Proof/Machine/System.lean ====
section
/-! DEFINITION. The meanings of `ecall` and `ebreak` (44_i_type_system.md R150 to R152). Neither reads or writes a register
or memory, and neither moves the pc. -/

namespace Sys2Proof.Machine

/-- `ecall` under the parameter `ECALL_ENV`, the environment's answer to a call: a next state, or none and then
`EnvironmentCall(pc)` is raised (R8, R151). -/
def execEcallIn (ecallEnv : State → Option State) (s : State) : Out :=
  match ecallEnv s with
  | some t => .next t
  | none => raise (.environmentCall s.pc)

/-- `ecall` (R151) with `ECALL_ENV` at its default, no next state: the proper end of a run (R209, R236). -/
def execEcall (s : State) : Out := execEcallIn (fun _ => none) s

/-- `ebreak` (R152): `Breakpoint(pc)`, which a model refuses (R210, R223). -/
def execEbreak (s : State) : Out := .refused (.breakpoint s.pc)

end Sys2Proof.Machine
end

