-- ==== Sys2Proof/Machine/Upper.lean ====
section
/-! DEFINITION. The meanings of `lui` and `auipc` (48_u_type.md R190 to R192). -/

namespace Sys2Proof.Machine

/-- `lui` (R191). -/
def execLui (rd : RegIdx) (imm : BitVec 20) (s : State) : Out := writeBack s rd (immU imm)

/-- `auipc` (R192): added to the address of the `auipc` itself. -/
def execAuipc (rd : RegIdx) (imm : BitVec 20) (s : State) : Out := writeBack s rd (s.pc + immU imm)

end Sys2Proof.Machine
end

