-- ==== Sys2Proof/Machine/Step.lean ====
section
/-! DEFINITION. One step of the machine (10_state.md R25), and a word placed where the next step fetches it. -/

namespace Sys2Proof.Machine

/-- One step (R25): the pc's alignment, the fetch, the decoding, then the instruction; the first check that fires is the
outcome (R213). The advance of the pc (R26) stands in each meaning. -/
def step (s : State) : Host.Outcome State Fault Refusal :=
  if aligned4 s.pc then
    orRaise (fetch s s.pc) (fun inst =>
      match decode inst with
      | .ok i => exec i s
      | .error _ => raise (.illegalInstruction s.pc inst))
  else raise (.instructionAddressMisaligned s.pc)

/-- The state with the instruction whose bits, numbered as spec/opcode_table.json numbers them, are `w` placed in the
program text at the pc, where the next step fetches (note 5). -/
def State.withFetchWord (s : State) (nbits w : Nat) : State := placeWord s s.pc (tableWord nbits w)

end Sys2Proof.Machine
end

