-- ==== Sys2Proof/Safety.lean ====
section
/-! DEFINITION. Runs, how they end, and what the machine always keeps (60_exceptions.md R223, 70_reset_and_hazards.md
R236). -/

namespace Sys2Proof

open Machine

/-- How an outcome counts (R223); `running` is a next state. -/
inductive Treatment where
  | running
  | final
  | fault
  | refuse
deriving DecidableEq, Repr

/-- The table of R223. -/
def treatment : Out → Treatment
  | .next _ => .running
  | .fault (.environmentCall _) => .final
  | .fault (.instructionAddressMisaligned _) => .fault
  | .fault (.fetchFault _) => .fault
  | .fault (.illegalInstruction _ _) => .fault
  | .fault (.loadAddressMisaligned _) => .fault
  | .fault (.loadAccessFault _) => .fault
  | .fault (.storeAddressMisaligned _) => .fault
  | .fault (.storeAccessFault _) => .fault
  | .fault (.arithmeticOverflow _) => .fault
  | .fault (.uninitialisedRead _) => .fault
  | .refused _ => .refuse

/-- `t` is reached from `s` by completed steps (R236). -/
inductive Reaches : State → State → Prop where
  | refl (s : State) : Reaches s s
  | step {s t u : State} : Reaches s t → Machine.step t = .next u → Reaches s u

/-- The run from `s` ends properly in `t` (R236): the step at `t` is an `EnvironmentCall`, and `t`, the state before the
`ecall`, is the final state. -/
def EndsProperly (s t : State) : Prop := Reaches s t ∧ treatment (Machine.step t) = .final

/-- No run from `s` comes to a fault or a refusal (R223). -/
def RunsSafely (s : State) : Prop :=
  ∀ t, Reaches s t → treatment (Machine.step t) = .running ∨ treatment (Machine.step t) = .final

/-- The canonical form of a program text: addresses rising, each a multiple of 4 and a 32-bit address (R42). -/
def progWf (p : Prog) : Bool := cellsRising p && p.all (fun c => decide (c.1 % 4 = 0) && decide (c.1 < 2 ^ 32))

/-- What holds in every state a run from a well-formed reset reaches: the pc is a multiple of 4 (R27), data memory is in
canonical form and holds values only at addresses of `MEM_MAP` (R31, R41), and the program text is well formed (R42). -/
def Inv (s : State) : Prop :=
  aligned4 s.pc = true ∧ Memory.wf s.mem = true ∧ (∀ a, readByte s a ≠ none → mapped s a = true) ∧
    progWf s.params.prog = true

end Sys2Proof
end

