-- ==== Sys2Proof/Certificates/Slice0/Obligations.lean ====
section
/-! DEFINITION. The statements for the provers, and the few words they share. -/

namespace Sys2Proof.Claims

open Machine

/-- `i` completes from `s`: `x[rd]` becomes `v` (nothing is written for `x0`), the pc becomes `pc'`, and every other
register, every byte of memory and every parameter stays as it was. -/
def WritesOnly (i : Instr) (s : State) (rd : RegIdx) (v pc' : Word) : Prop :=
  ∃ t, exec i s = .next t ∧ (rd ≠ 0#5 → readReg t rd = v) ∧ readReg t 0#5 = 0#32 ∧
    (∀ r, r ≠ rd → readReg t r = readReg s r) ∧ t.pc = pc' ∧ (∀ a, readByte t a = readByte s a) ∧ t.params = s.params

/-- `i` completes from `s`: the pc becomes `pc'` and nothing else changes. -/
def MovesOnly (i : Instr) (s : State) (pc' : Word) : Prop :=
  ∃ t, exec i s = .next t ∧ (∀ r, readReg t r = readReg s r) ∧ t.pc = pc' ∧ (∀ a, readByte t a = readByte s a) ∧
    t.params = s.params

/-- `i` is the load of `n` bytes into `rd` at `x[rs1] + imm` (43_i_type_load.md). -/
def LoadOf (i : Instr) (rd rs1 : RegIdx) (imm : BitVec 12) (n : Nat) : Prop :=
  (i = .lb rd rs1 imm ∧ n = 1) ∨ (i = .lh rd rs1 imm ∧ n = 2) ∨ (i = .lw rd rs1 imm ∧ n = 4) ∨
    (i = .lbu rd rs1 imm ∧ n = 1) ∨ (i = .lhu rd rs1 imm ∧ n = 2)

/-- `i` is the store of `n` bytes of `rs2` at `x[rs1] + imm` (45_s_type.md). -/
def StoreOf (i : Instr) (rs1 rs2 : RegIdx) (imm : BitVec 12) (n : Nat) : Prop :=
  (i = .sb rs1 rs2 imm ∧ n = 1) ∨ (i = .sh rs1 rs2 imm ∧ n = 2) ∨ (i = .sw rs1 rs2 imm ∧ n = 4)

/-- `i` is a branch by `off`, and `taken` says whether its condition holds in `s` (R171 to R177). -/
def BranchOf (s : State) (i : Instr) (off : BitVec 13) (taken : Prop) : Prop :=
  ∃ rs1 rs2,
    (i = .beq rs1 rs2 off ∧ (taken ↔ readReg s rs1 = readReg s rs2)) ∨
    (i = .bne rs1 rs2 off ∧ (taken ↔ readReg s rs1 ≠ readReg s rs2)) ∨
    (i = .blt rs1 rs2 off ∧ (taken ↔ (readReg s rs1).toInt < (readReg s rs2).toInt)) ∨
    (i = .bge rs1 rs2 off ∧ (taken ↔ (readReg s rs2).toInt ≤ (readReg s rs1).toInt)) ∨
    (i = .bltu rs1 rs2 off ∧ (taken ↔ (readReg s rs1).toNat < (readReg s rs2).toNat)) ∨
    (i = .bgeu rs1 rs2 off ∧ (taken ↔ (readReg s rs2).toNat ≤ (readReg s rs1).toNat))

/-- The register an instruction writes (R38). -/
def destOf : Instr → Option RegIdx
  | .add rd _ _ => some rd
  | .mul rd _ _ => some rd
  | .addu rd _ _ => some rd
  | .sub rd _ _ => some rd
  | .subu rd _ _ => some rd
  | .sll rd _ _ => some rd
  | .slt rd _ _ => some rd
  | .sltu rd _ _ => some rd
  | .xor rd _ _ => some rd
  | .div rd _ _ => some rd
  | .srl rd _ _ => some rd
  | .sra rd _ _ => some rd
  | .or rd _ _ => some rd
  | .rem rd _ _ => some rd
  | .and rd _ _ => some rd
  | .addi rd _ _ => some rd
  | .slli rd _ _ => some rd
  | .slti rd _ _ => some rd
  | .sltiu rd _ _ => some rd
  | .xori rd _ _ => some rd
  | .srli rd _ _ => some rd
  | .srai rd _ _ => some rd
  | .ori rd _ _ => some rd
  | .andi rd _ _ => some rd
  | .lb rd _ _ => some rd
  | .lh rd _ _ => some rd
  | .lw rd _ _ => some rd
  | .lbu rd _ _ => some rd
  | .lhu rd _ _ => some rd
  | .ecall => none
  | .ebreak => none
  | .sb _ _ _ => none
  | .sh _ _ _ => none
  | .sw _ _ _ => none
  | .beq _ _ _ => none
  | .bne _ _ _ => none
  | .blt _ _ _ => none
  | .bge _ _ _ => none
  | .bltu _ _ _ => none
  | .bgeu _ _ _ => none
  | .jal rd _ => some rd
  | .jalr rd _ _ => some rd
  | .lui rd _ => some rd
  | .auipc rd _ => some rd

/-- The sum of an address and a signed offset, modulo `2^32` (R26, R49). -/
def plus (a : Word) (off : Int) : Word := BitVec.ofInt 32 (a.toInt + off)

/-- `i` writes the signed result `r` to `rd` when it fits 32 bits, and raises `ArithmeticOverflow(pc)` when it does not
(R101, R104, R121). -/
def WritesOrTraps (i : Instr) (s : State) (rd : RegIdx) (r : Int) : Prop :=
  if -2 ^ 31 ≤ r ∧ r ≤ 2 ^ 31 - 1 then WritesOnly i s rd (BitVec.ofInt 32 r) (plus s.pc 4)
  else exec i s = .fault (.arithmeticOverflow s.pc)

/-- `pc'` is where `i` may go from `s` when it completes (R26). -/
def GoesTo (i : Instr) (s : State) (pc' : Word) : Prop :=
  match i with
  | .beq _ _ off => pc' = plus s.pc 4 ∨ pc' = plus s.pc off.toInt
  | .bne _ _ off => pc' = plus s.pc 4 ∨ pc' = plus s.pc off.toInt
  | .blt _ _ off => pc' = plus s.pc 4 ∨ pc' = plus s.pc off.toInt
  | .bge _ _ off => pc' = plus s.pc 4 ∨ pc' = plus s.pc off.toInt
  | .bltu _ _ off => pc' = plus s.pc 4 ∨ pc' = plus s.pc off.toInt
  | .bgeu _ _ off => pc' = plus s.pc 4 ∨ pc' = plus s.pc off.toInt
  | .jal _ off => pc' = plus s.pc off.toInt
  | .jalr _ rs1 imm => pc' = plus (readReg s rs1) imm.toInt
  | _ => pc' = plus s.pc 4

/-- The word is illegal: clauses (a) to (h) of R86, over the fields of R71. -/
def IllegalWord (w : Word) : Prop :=
  (opcodeOf w ∉ [0b0000011#7, 0b0010011#7, 0b0010111#7, 0b0100011#7, 0b0110011#7, 0b0110111#7, 0b1100011#7,
    0b1100111#7, 0b1101111#7, 0b1110011#7]) ∨
  (opcodeOf w = 0b0110011#7 ∧ (funct3Of w, funct7Of w) ∉ [(0b000#3, 0x00#7), (0b000#3, 0x01#7), (0b000#3, 0x02#7),
    (0b000#3, 0x04#7), (0b000#3, 0x20#7), (0b001#3, 0x00#7), (0b010#3, 0x00#7), (0b011#3, 0x00#7), (0b100#3, 0x00#7),
    (0b100#3, 0x01#7), (0b101#3, 0x00#7), (0b101#3, 0x20#7), (0b110#3, 0x00#7), (0b110#3, 0x01#7), (0b111#3, 0x00#7)]) ∨
  (opcodeOf w = 0b0010011#7 ∧ ((funct3Of w = 0b001#3 ∧ funct7Of w ≠ 0x00#7) ∨
    (funct3Of w = 0b101#3 ∧ funct7Of w ≠ 0x00#7 ∧ funct7Of w ≠ 0x20#7))) ∨
  (opcodeOf w = 0b0000011#7 ∧ funct3Of w ∈ [0b011#3, 0b110#3, 0b111#3]) ∨
  (opcodeOf w = 0b0100011#7 ∧ funct3Of w ∈ [0b011#3, 0b100#3, 0b101#3, 0b110#3, 0b111#3]) ∨
  (opcodeOf w = 0b1100011#7 ∧ funct3Of w ∈ [0b010#3, 0b011#3]) ∨
  (opcodeOf w = 0b1100111#7 ∧ funct3Of w ≠ 0b000#3) ∨
  (opcodeOf w = 0b1110011#7 ∧ w ≠ 0x00000073#32 ∧ w ≠ 0x00100073#32)

end Sys2Proof.Claims

open Sys2Proof Sys2Proof.Machine Sys2Proof.Claims

/-! ## Registers, reset, invariants -/

/-- R22: `x0` reads as zero and a write to it is discarded; any other register reads as last written, and a write leaves
the other registers alone. -/
def Obligations.RegisterFileReadsAsWritten : Prop :=
  ∀ (s : State) (i j : RegIdx) (v : Word),
    readReg s 0#5 = 0#32 ∧ writeReg s 0#5 v = s ∧
      readReg (writeReg s i v) j = if j = i ∧ i ≠ 0#5 then v else readReg s j

/-- R230: reset takes the pc, the registers and the bytes of memory from `RESET_PC`, `REG_INIT` and `MEM_INIT`. -/
def Obligations.ResetTakesTheParameters : Prop :=
  ∀ (p : Params) (pc : Word) (r : Vector Word 31) (m : Memory),
    (State.resetWith p pc r m).pc = pc ∧ readReg (State.resetWith p pc r m) 0#5 = 0#32 ∧
      (∀ (i : RegIdx) (k : Fin 31), k.val + 1 = i.toNat → readReg (State.resetWith p pc r m) i = r[k]) ∧
      (∀ a, readByte (State.resetWith p pc r m) a = cellsFind m a) ∧ (State.resetWith p pc r m).params = p

/-- The model's choices for `State.reset` (notes 2, 3 and 4): the pc and every register are zero, no byte holds a value,
and every 32-bit address is mapped. -/
def Obligations.ResetNamesEveryValue : Prop :=
  State.reset.pc = 0#32 ∧ (∀ i, readReg State.reset i = 0#32) ∧ (∀ a, readByte State.reset a = none) ∧
    (∀ a, mapped State.reset a = decide (a < 2 ^ 32))

/-- The invariant of Safety.lean holds at reset. -/
def Obligations.ResetMeetsTheInvariant : Prop := Inv State.reset

/-- Every step keeps the invariant: the pc a multiple of 4 (R27), memory in canonical form and holding values only inside
`MEM_MAP` (R31, R41), the program text well formed (R42). -/
def Obligations.StepKeepsTheInvariant : Prop := ∀ s t : State, Inv s → step s = .next t → Inv t

/-- R27: the pc a step leaves is a multiple of 4, from any state. -/
def Obligations.StepLeavesThePcAligned : Prop := ∀ s t : State, step s = .next t → t.pc.toNat % 4 = 0

/-- A run keeps the invariant, and no step of it changes the program text or another parameter (R20, R58). -/
def Obligations.RunKeepsInvariantAndText : Prop :=
  ∀ s t : State, Inv s → Reaches s t → Inv t ∧ t.params = s.params

/-- R38, R31, R20: an instruction that completes changes no register but its `rd`, no byte of memory unless it is a
store, and no parameter. -/
def Obligations.InstructionsChangeOnlyWhatTheyName : Prop :=
  ∀ (s t : State) (i : Instr), exec i s = .next t →
    (∀ r, destOf i ≠ some r → readReg t r = readReg s r) ∧
      ((∀ rs1 rs2 imm n, ¬ StoreOf i rs1 rs2 imm n) → ∀ a, readByte t a = readByte s a) ∧ t.params = s.params

/-- R26: where an instruction that completes goes: to `pc + 4`, or to a branch's or jump's target. -/
def Obligations.InstructionsGoWhereTheyName : Prop :=
  ∀ (s t : State) (i : Instr), exec i s = .next t → GoesTo i s t.pc

/-! ## Encoding and the step -/

/-- Decoding the word of a well-formed instruction gives the instruction, with every operand at every value (R71 to R87). -/
def Obligations.DecodeInvertsEncode : Prop := ∀ i : Instr, i.wellFormed = true → decode (encode i) = .ok i

/-- A word that decodes is the word of the instruction it decodes to, which is well formed: decoding drops no bit. -/
def Obligations.EncodeInvertsDecode : Prop :=
  ∀ (w : Word) (i : Instr), decode w = .ok i → i.wellFormed = true ∧ encode i = w

/-- The decoder is the opcode table: a word decodes to a row's instruction exactly when it has the row's fixed bits
(R84, 95_test_vectors.md 2.1). -/
def Obligations.DecodeIsTheOpcodeTable : Prop :=
  ∀ (w : Word) (i : Instr),
    (∃ j, decode w = .ok j ∧ j.mnemonic = i.mnemonic) ↔ w &&& (opcodeRow i).mask = (opcodeRow i).value

/-- R86, R202: a fetched word raises `IllegalInstruction(pc, inst)` exactly when it is one of (a) to (h). -/
def Obligations.IllegalWordsRaise : Prop :=
  ∀ (s : State) (w : Word), s.pc.toNat % 4 = 0 → cellsFind s.params.prog s.pc.toNat = some w →
    (step s = .fault (.illegalInstruction s.pc w) ↔ IllegalWord w)

/-- One word of each family, written out from its format, decodes to the instruction it stands for (95_test_vectors.md
2.2). -/
def Obligations.SampleWordsDecode : Prop :=
  decode 0x402081B3#32 = .ok (.sub 3#5 1#5 2#5) ∧ decode 0x80008193#32 = .ok (.addi 3#5 1#5 0x800#12) ∧
    decode 0x4040D193#32 = .ok (.srai 3#5 1#5 4#5) ∧ decode 0xFFC0A183#32 = .ok (.lw 3#5 1#5 0xFFC#12) ∧
    decode 0x00100073#32 = .ok .ebreak ∧ decode 0xFE20AE23#32 = .ok (.sw 1#5 2#5 0xFFC#12) ∧
    decode 0xFE209CE3#32 = .ok (.bne 1#5 2#5 0x1FF8#13) ∧ decode 0xFFDFF06F#32 = .ok (.jal 0#5 0x1FFFFC#21) ∧
    decode 0x008282E7#32 = .ok (.jalr 5#5 5#5 8#12) ∧ decode 0x123451B7#32 = .ok (.lui 3#5 0x12345#20)

/-- R25, R46: at an aligned pc the step executes the instruction that the word there, or its four bytes with the lowest
address first, decodes to, and so the instruction whose encoding stands there. The pc's advance is in `exec`. -/
def Obligations.StepRunsTheDecodedInstruction : Prop :=
  ∀ (s : State) (i : Instr), s.pc.toNat % 4 = 0 →
    (∀ w, cellsFind s.params.prog s.pc.toNat = some w → decode w = .ok i → step s = exec i s) ∧
      (∀ b0 b1 b2 b3 rest, cellsFind s.params.prog s.pc.toNat = some (b3 ++ b2 ++ b1 ++ b0 : BitVec 32) →
        decodeBytes (b0 :: b1 :: b2 :: b3 :: rest) = .ok (i, rest) → step s = exec i s) ∧
      (i.wellFormed = true → cellsFind s.params.prog s.pc.toNat = some (encode i) → step s = exec i s)

/-- R25, R203 (b), R204: a pc that is not a multiple of 4 raises `InstructionAddressMisaligned(pc)`, and an aligned pc
outside `PROG` raises `FetchFault(pc)`. -/
def Obligations.FetchStopsOutsideTheText : Prop :=
  ∀ s : State, (s.pc.toNat % 4 ≠ 0 → step s = .fault (.instructionAddressMisaligned s.pc)) ∧
    (s.pc.toNat % 4 = 0 → cellsFind s.params.prog s.pc.toNat = none → step s = .fault (.fetchFault s.pc))

/-! ## Arithmetic and logic -/

/-- R101, R104, R116, R121 under `wrap`: `add`, `sub` and `addi` write the signed result modulo `2^32`, and `add` and
`addu`, `sub` and `subu` are the same function. -/
def Obligations.AddSubWrapByDefault : Prop :=
  ∀ (s : State) (rd rs1 rs2 : RegIdx) (imm : BitVec 12), s.params.overflowPolicy = .wrap →
    WritesOnly (.add rd rs1 rs2) s rd (BitVec.ofInt 32 ((readReg s rs1).toInt + (readReg s rs2).toInt)) (plus s.pc 4) ∧
      WritesOnly (.sub rd rs1 rs2) s rd (BitVec.ofInt 32 ((readReg s rs1).toInt - (readReg s rs2).toInt)) (plus s.pc 4) ∧
      WritesOnly (.addi rd rs1 imm) s rd (BitVec.ofInt 32 ((readReg s rs1).toInt + imm.toInt)) (plus s.pc 4) ∧
      exec (.add rd rs1 rs2) s = exec (.addu rd rs1 rs2) s ∧ exec (.sub rd rs1 rs2) s = exec (.subu rd rs1 rs2) s

/-- R103, R105: `addu` and `subu` wrap modulo `2^32` under either policy. -/
def Obligations.AdduSubuIgnoreOverflow : Prop :=
  ∀ (s : State) (rd rs1 rs2 : RegIdx),
    WritesOnly (.addu rd rs1 rs2) s rd (BitVec.ofNat 32 ((readReg s rs1).toNat + (readReg s rs2).toNat)) (plus s.pc 4) ∧
      WritesOnly (.subu rd rs1 rs2) s rd (BitVec.ofInt 32 ((readReg s rs1).toNat - (readReg s rs2).toNat : Int))
        (plus s.pc 4)

/-- R211: under `OVERFLOW_POLICY = fault`, `add`, `sub` and `addi` raise `ArithmeticOverflow(pc)` when the signed result
does not fit 32 bits and write it when it does; no other instruction raises it, and under `wrap` none does. -/
def Obligations.OverflowTrapsOnlyUnderFaultPolicy : Prop :=
  ∀ (s : State) (rd rs1 rs2 : RegIdx) (imm : BitVec 12),
    (s.params.overflowPolicy = .fault →
        WritesOrTraps (.add rd rs1 rs2) s rd ((readReg s rs1).toInt + (readReg s rs2).toInt) ∧
        WritesOrTraps (.sub rd rs1 rs2) s rd ((readReg s rs1).toInt - (readReg s rs2).toInt) ∧
        WritesOrTraps (.addi rd rs1 imm) s rd ((readReg s rs1).toInt + imm.toInt)) ∧
      (∀ (i : Instr) (p : Word), exec i s = .fault (.arithmeticOverflow p) →
        s.params.overflowPolicy = .fault ∧ p = s.pc ∧ i.mnemonic ∈ ["add", "sub", "addi"])

/-- R102: `mul` writes the low 32 bits of the product, the same bits for the signed and the unsigned reading. -/
def Obligations.MulWritesTheLowWord : Prop :=
  ∀ (s : State) (rd rs1 rs2 : RegIdx),
    WritesOnly (.mul rd rs1 rs2) s rd (BitVec.ofNat 32 ((readReg s rs1).toNat * (readReg s rs2).toNat)) (plus s.pc 4) ∧
      WritesOnly (.mul rd rs1 rs2) s rd (BitVec.ofInt 32 ((readReg s rs1).toInt * (readReg s rs2).toInt)) (plus s.pc 4)

/-- R106, R111, R112, R119: a shift by a register takes its amount modulo 32; `sll` multiplies, `srl` divides the unsigned
and `sra` the signed value by the power of two, rounding down. -/
def Obligations.ShiftsByRegisterTakeFiveBits : Prop :=
  ∀ (s : State) (rd rs1 rs2 : RegIdx) (n : Nat), n = (readReg s rs2).toNat % 32 →
    WritesOnly (.sll rd rs1 rs2) s rd (BitVec.ofNat 32 ((readReg s rs1).toNat * 2 ^ n)) (plus s.pc 4) ∧
      WritesOnly (.srl rd rs1 rs2) s rd (BitVec.ofNat 32 ((readReg s rs1).toNat / 2 ^ n)) (plus s.pc 4) ∧
      WritesOnly (.sra rd rs1 rs2) s rd (BitVec.ofInt 32 ((readReg s rs1).toInt / 2 ^ n)) (plus s.pc 4)

/-- R122, R126, R127: the shifts by an immediate. -/
def Obligations.ShiftsByImmediate : Prop :=
  ∀ (s : State) (rd rs1 : RegIdx) (shamt : BitVec 5),
    WritesOnly (.slli rd rs1 shamt) s rd (BitVec.ofNat 32 ((readReg s rs1).toNat * 2 ^ shamt.toNat)) (plus s.pc 4) ∧
      WritesOnly (.srli rd rs1 shamt) s rd (BitVec.ofNat 32 ((readReg s rs1).toNat / 2 ^ shamt.toNat)) (plus s.pc 4) ∧
      WritesOnly (.srai rd rs1 shamt) s rd (BitVec.ofInt 32 ((readReg s rs1).toInt / 2 ^ shamt.toNat)) (plus s.pc 4)

/-- R107, R108: `slt` compares signed, `sltu` unsigned; the result is 1 or 0. -/
def Obligations.CompareRegisters : Prop :=
  ∀ (s : State) (rd rs1 rs2 : RegIdx),
    WritesOnly (.slt rd rs1 rs2) s rd (if (readReg s rs1).toInt < (readReg s rs2).toInt then 1#32 else 0#32)
        (plus s.pc 4) ∧
      WritesOnly (.sltu rd rs1 rs2) s rd (if (readReg s rs1).toNat < (readReg s rs2).toNat then 1#32 else 0#32)
        (plus s.pc 4)

/-- R123, R124: `slti` compares signed with the sign-extended immediate; `sltiu` compares unsigned, with the immediate
sign-extended under `SLTIU_IMM_EXT = sign` and zero-extended under `zero`. -/
def Obligations.CompareWithImmediate : Prop :=
  ∀ (s : State) (rd rs1 : RegIdx) (imm : BitVec 12),
    WritesOnly (.slti rd rs1 imm) s rd (if (readReg s rs1).toInt < imm.toInt then 1#32 else 0#32) (plus s.pc 4) ∧
      (s.params.sltiuImmExt = .sign → WritesOnly (.sltiu rd rs1 imm) s rd
        (if (readReg s rs1).toNat < (BitVec.ofInt 32 imm.toInt).toNat then 1#32 else 0#32) (plus s.pc 4)) ∧
      (s.params.sltiuImmExt = .zero → WritesOnly (.sltiu rd rs1 imm) s rd
        (if (readReg s rs1).toNat < imm.toNat then 1#32 else 0#32) (plus s.pc 4))

/-- R109, R113, R115: `xor`, `or` and `and` bit by bit. -/
def Obligations.LogicOnRegisters : Prop :=
  ∀ (s : State) (rd rs1 rs2 : RegIdx),
    (∃ v, WritesOnly (.xor rd rs1 rs2) s rd v (plus s.pc 4) ∧
        ∀ k < 32, v.getLsbD k = ((readReg s rs1).getLsbD k ^^ (readReg s rs2).getLsbD k)) ∧
      (∃ v, WritesOnly (.or rd rs1 rs2) s rd v (plus s.pc 4) ∧
        ∀ k < 32, v.getLsbD k = ((readReg s rs1).getLsbD k || (readReg s rs2).getLsbD k)) ∧
      (∃ v, WritesOnly (.and rd rs1 rs2) s rd v (plus s.pc 4) ∧
        ∀ k < 32, v.getLsbD k = ((readReg s rs1).getLsbD k && (readReg s rs2).getLsbD k))

/-- R125, R128, R129: `xori`, `ori` and `andi` bit by bit, the immediate's bit 11 standing for every bit above it. -/
def Obligations.LogicWithImmediate : Prop :=
  ∀ (s : State) (rd rs1 : RegIdx) (imm : BitVec 12),
    (∃ v, WritesOnly (.xori rd rs1 imm) s rd v (plus s.pc 4) ∧
        ∀ k < 32, v.getLsbD k = ((readReg s rs1).getLsbD k ^^ imm.getLsbD (min k 11))) ∧
      (∃ v, WritesOnly (.ori rd rs1 imm) s rd v (plus s.pc 4) ∧
        ∀ k < 32, v.getLsbD k = ((readReg s rs1).getLsbD k || imm.getLsbD (min k 11))) ∧
      (∃ v, WritesOnly (.andi rd rs1 imm) s rd v (plus s.pc 4) ∧
        ∀ k < 32, v.getLsbD k = ((readReg s rs1).getLsbD k && imm.getLsbD (min k 11)))

/-- R118: `div` and `rem` at every sign combination: the quotient rounds toward zero, the remainder has the dividend's
sign; with a zero divisor or at `-2^31` by `-1` each completes with the open value, whatever that is. -/
def Obligations.DivRemAtEverySign : Prop :=
  ∀ (s : State) (rd rs1 rs2 : RegIdx) (a b : Word), a = readReg s rs1 → b = readReg s rs2 →
    if b = 0#32 then
      WritesOnly (.div rd rs1 rs2) s rd (Config.divZero a) (plus s.pc 4) ∧
        WritesOnly (.rem rd rs1 rs2) s rd (Config.remZero a) (plus s.pc 4)
    else if a.toInt = -2 ^ 31 ∧ b.toInt = -1 then
      WritesOnly (.div rd rs1 rs2) s rd Config.divOvf (plus s.pc 4) ∧
        WritesOnly (.rem rd rs1 rs2) s rd Config.remOvf (plus s.pc 4)
    else
      ∃ q r : Word, WritesOnly (.div rd rs1 rs2) s rd q (plus s.pc 4) ∧ WritesOnly (.rem rd rs1 rs2) s rd r (plus s.pc 4) ∧
        a.toInt = q.toInt * b.toInt + r.toInt ∧ q.toInt.natAbs = a.toInt.natAbs / b.toInt.natAbs ∧
        (q.toInt < 0 ↔ ((a.toInt < 0 ∧ 0 < b.toInt) ∨ (0 < a.toInt ∧ b.toInt < 0)) ∧ b.toInt.natAbs ≤ a.toInt.natAbs) ∧
        r.toInt.natAbs < b.toInt.natAbs ∧ (r.toInt = 0 ∨ (r.toInt < 0 ↔ a.toInt < 0))

/-- R191, R192: `lui` writes the field times `2^12`; `auipc` adds it to the instruction's own address, modulo `2^32`. -/
def Obligations.UpperImmediates : Prop :=
  ∀ (s : State) (rd : RegIdx) (imm : BitVec 20),
    WritesOnly (.lui rd imm) s rd (BitVec.ofNat 32 (imm.toNat * 2 ^ 12)) (plus s.pc 4) ∧
      WritesOnly (.auipc rd imm) s rd (BitVec.ofNat 32 (s.pc.toNat + imm.toNat * 2 ^ 12)) (plus s.pc 4)

/-! ## Loads and stores -/

/-- R44, R141 to R145, R147: from `a = x[rs1] + imm`, aligned, mapped and holding values, a load writes the little-endian
value of its bytes, sign-extended by `lb` and `lh`, zero-extended by `lbu` and `lhu`. -/
def Obligations.LoadsReadLittleEndian : Prop :=
  ∀ (s : State) (rd rs1 : RegIdx) (imm : BitVec 12) (a : Nat) (b0 b1 b2 b3 : Byte),
    a = (readReg s rs1 + sext12 imm).toNat → mapped s a = true → readByte s a = some b0 →
      WritesOnly (.lb rd rs1 imm) s rd (BitVec.ofInt 32 b0.toInt) (plus s.pc 4) ∧
      WritesOnly (.lbu rd rs1 imm) s rd (BitVec.ofNat 32 b0.toNat) (plus s.pc 4) ∧
      (a % 2 = 0 → mapped s (a + 1) = true → readByte s (a + 1) = some b1 →
        WritesOnly (.lh rd rs1 imm) s rd (BitVec.ofInt 32 (b1 ++ b0).toInt) (plus s.pc 4) ∧
        WritesOnly (.lhu rd rs1 imm) s rd (BitVec.ofNat 32 (b1 ++ b0).toNat) (plus s.pc 4) ∧
        (a % 4 = 0 → mapped s (a + 2) = true → mapped s (a + 3) = true → readByte s (a + 2) = some b2 →
          readByte s (a + 3) = some b3 →
          WritesOnly (.lw rd rs1 imm) s rd (b3 ++ b2 ++ b1 ++ b0) (plus s.pc 4)))

/-- R205, R207 and R44's third check: a load stops at a misaligned address; at an aligned one with a byte outside
`MEM_MAP`; and last where a byte holds no value. -/
def Obligations.LoadsStopInOrder : Prop :=
  ∀ (s : State) (i : Instr) (rd rs1 : RegIdx) (imm : BitVec 12) (n : Nat) (a : Word), LoadOf i rd rs1 imm n →
    a = readReg s rs1 + sext12 imm →
      (a.toNat % n ≠ 0 → exec i s = .fault (.loadAddressMisaligned a)) ∧
      (a.toNat % n = 0 → (∃ k < n, mapped s (a.toNat + k) = false) → exec i s = .fault (.loadAccessFault a)) ∧
      (a.toNat % n = 0 → (∀ k < n, mapped s (a.toNat + k) = true) → (∃ k < n, readByte s (a.toNat + k) = none) →
        exec i s = .fault (.uninitialisedRead a))

/-- R45, R160 to R163: at `a = x[rs1] + imm`, aligned and mapped, a store puts byte `k` of `x[rs2]` at `a + k`; every
other byte, every register and every parameter stays, and the pc advances. -/
def Obligations.StoresWriteLittleEndian : Prop :=
  ∀ (s : State) (i : Instr) (rs1 rs2 : RegIdx) (imm : BitVec 12) (n a : Nat), StoreOf i rs1 rs2 imm n →
    a = (readReg s rs1 + sext12 imm).toNat → a % n = 0 → (∀ k < n, mapped s (a + k) = true) →
      ∃ t, exec i s = .next t ∧ (∀ k < n, readByte t (a + k) = some ((readReg s rs2).extractLsb' (8 * k) 8)) ∧
        (∀ x, (x < a ∨ a + n ≤ x) → readByte t x = readByte s x) ∧ (∀ r, readReg t r = readReg s r) ∧
        t.pc = plus s.pc 4 ∧ t.params = s.params

/-- R206, R208: a store stops at a misaligned address, and at an aligned one with a byte outside `MEM_MAP`. -/
def Obligations.StoresStopInOrder : Prop :=
  ∀ (s : State) (i : Instr) (rs1 rs2 : RegIdx) (imm : BitVec 12) (n : Nat) (a : Word), StoreOf i rs1 rs2 imm n →
    a = readReg s rs1 + sext12 imm →
      (a.toNat % n ≠ 0 → exec i s = .fault (.storeAddressMisaligned a)) ∧
      (a.toNat % n = 0 → (∃ k < n, mapped s (a.toNat + k) = false) → exec i s = .fault (.storeAccessFault a))

/-- R60: what narrower reads see after a word is written, and what a word read sees after one of its bytes is. -/
def Obligations.MixedWidthAccesses : Prop :=
  ∀ (s t u : State) (a : Word) (w : BitVec (8 * 4)) (b : BitVec (8 * 1)), memWrite s a 4 w = .ok t →
    memRead t a 1 = .ok (w.extractLsb' 0 8) ∧ memRead t (a + 1#32) 1 = .ok (w.extractLsb' 8 8) ∧
      memRead t (a + 2#32) 1 = .ok (w.extractLsb' 16 8) ∧ memRead t (a + 3#32) 1 = .ok (w.extractLsb' 24 8) ∧
      memRead t a 2 = .ok (w.extractLsb' 0 16) ∧ memRead t (a + 2#32) 2 = .ok (w.extractLsb' 16 16) ∧
      (memWrite t (a + 1#32) 1 b = .ok u → memRead u a 4 = .ok (w.extractLsb' 16 16 ++ b ++ w.extractLsb' 0 8))

/-- R55 (a), (b): after a store that completed, the load of the same width at the same operands writes the stored value
(its low bytes, zero-extended). -/
def Obligations.LoadSeesTheLatestStore : Prop :=
  ∀ (s t : State) (rd rs1 rs2 : RegIdx) (imm : BitVec 12),
    (exec (.sw rs1 rs2 imm) s = .next t → WritesOnly (.lw rd rs1 imm) t rd (readReg s rs2) (plus t.pc 4)) ∧
      (exec (.sh rs1 rs2 imm) s = .next t →
        WritesOnly (.lhu rd rs1 imm) t rd (BitVec.ofNat 32 ((readReg s rs2).toNat % 2 ^ 16)) (plus t.pc 4)) ∧
      (exec (.sb rs1 rs2 imm) s = .next t →
        WritesOnly (.lbu rd rs1 imm) t rd (BitVec.ofNat 32 ((readReg s rs2).toNat % 2 ^ 8)) (plus t.pc 4))

/-- R42, R58: an aligned load or store that touches one of the four bytes of a word of `PROG` raises the access fault, and
no store that completes changes `PROG`. -/
def Obligations.ProgramTextIsOutOfReach : Prop :=
  ∀ (s : State) (i : Instr) (rd rs1 rs2 : RegIdx) (imm : BitVec 12) (n k p : Nat) (w a : Word),
    a = readReg s rs1 + sext12 imm → a.toNat % n = 0 → k < n → (p, w) ∈ s.params.prog → p ≤ a.toNat + k →
      a.toNat + k < p + 4 →
      (LoadOf i rd rs1 imm n → exec i s = .fault (.loadAccessFault a)) ∧
      (StoreOf i rs1 rs2 imm n → exec i s = .fault (.storeAccessFault a)) ∧
      (∀ (j : Instr) (r1 r2 : RegIdx) (jmm : BitVec 12) (m : Nat) (t : State), StoreOf j r1 r2 jmm m →
        exec j s = .next t → t.params.prog = s.params.prog)

/-! ## Control flow and the end of a run -/

/-- R170, R177: a branch whose condition holds goes to `pc + off` when that is a multiple of 4 and raises
`InstructionAddressMisaligned(target)` when it is not; one whose condition fails goes to `pc + 4`. Nothing else changes. -/
def Obligations.BranchesGoWhereTheConditionSays : Prop :=
  ∀ (s : State) (i : Instr) (off : BitVec 13) (taken : Prop) (target : Word), BranchOf s i off taken →
    target = plus s.pc off.toInt →
      (taken → target.toNat % 4 = 0 → MovesOnly i s target) ∧
      (taken → target.toNat % 4 ≠ 0 → exec i s = .fault (.instructionAddressMisaligned target)) ∧
      (¬ taken → MovesOnly i s (plus s.pc 4))

/-- R180, R181: `jal` links `pc + 4` in `rd` and goes to `pc + off`, or raises and writes nothing when that is no multiple
of 4. -/
def Obligations.JalLinksAndJumps : Prop :=
  ∀ (s : State) (rd : RegIdx) (off : BitVec 21) (target : Word), target = plus s.pc off.toInt →
    (target.toNat % 4 = 0 → WritesOnly (.jal rd off) s rd (plus s.pc 4) target) ∧
      (target.toNat % 4 ≠ 0 → exec (.jal rd off) s = .fault (.instructionAddressMisaligned target))

/-- R180, R182: `jalr` links `pc + 4` in `rd` and goes to the old `x[rs1]` plus the immediate, bit for bit, or raises and
writes nothing when that is no multiple of 4. -/
def Obligations.JalrLinksAndJumps : Prop :=
  ∀ (s : State) (rd rs1 : RegIdx) (imm : BitVec 12) (target : Word), target = plus (readReg s rs1) imm.toInt →
    (target.toNat % 4 = 0 → WritesOnly (.jalr rd rs1 imm) s rd (plus s.pc 4) target) ∧
      (target.toNat % 4 ≠ 0 → exec (.jalr rd rs1 imm) s = .fault (.instructionAddressMisaligned target))

/-- R151, R209: `ecall` always ends in `EnvironmentCall(pc)`, and no other instruction ends a run properly. -/
def Obligations.EcallAloneEndsARunProperly : Prop :=
  ∀ s : State, exec .ecall s = .fault (.environmentCall s.pc) ∧
    ∀ i : Instr, treatment (exec i s) = .final → i = .ecall

/-- R152, R210: `ebreak` is always refused as `Breakpoint(pc)`, and no other instruction is refused. -/
def Obligations.EbreakAloneIsRefused : Prop :=
  ∀ s : State, exec .ebreak s = .refused (.breakpoint s.pc) ∧
    ∀ (i : Instr) (r : Refusal), exec i s = .refused r → i = .ebreak

/-- R236: a run that ends properly ends with the pc at the `ecall` word of the program text it began with. -/
def Obligations.ProperEndStandsAtAnEcall : Prop :=
  ∀ s t : State, EndsProperly s t →
    t.pc.toNat % 4 = 0 ∧ cellsFind s.params.prog t.pc.toNat = some 0x00000073#32 ∧
      step t = .fault (.environmentCall t.pc)
end

