-- ==== Sys2Proof/Laws/Cells.lean ====
section
/-! SUPPORT. The laws of sparse data by address: read after write, and the rising order every write keeps. -/

namespace Sys2Proof.Machine

variable {β : Type}

@[simp] theorem cellsFind_insert_same (m : List (Nat × β)) (a : Nat) (v : β) :
    cellsFind (cellsInsert m a v) a = some v := by
  induction m with
  | nil => simp [cellsInsert, cellsFind]
  | cons c m ih =>
    obtain ⟨k, w⟩ := c
    rw [cellsInsert]
    split
    · simp [cellsFind]
    · split
      · simp [cellsFind]
      · have : k ≠ a := by omega
        simp [cellsFind, this, ih]

theorem cellsFind_insert_ne (m : List (Nat × β)) {a b : Nat} (v : β) (h : b ≠ a) :
    cellsFind (cellsInsert m a v) b = cellsFind m b := by
  induction m with
  | nil => simp [cellsInsert, cellsFind, h.symm]
  | cons c m ih =>
    obtain ⟨k, w⟩ := c
    rw [cellsInsert]
    split
    · simp [cellsFind, h.symm]
    · split
      · rename_i _ hk
        subst hk
        simp [cellsFind, h.symm]
      · simp [cellsFind, ih]

/-- A found value is listed. -/
theorem cellsFind_mem {m : List (Nat × β)} {a : Nat} {v : β} (h : cellsFind m a = some v) : (a, v) ∈ m := by
  induction m with
  | nil => simp [cellsFind] at h
  | cons c m ih =>
    obtain ⟨k, w⟩ := c
    rw [cellsFind] at h
    split at h
    · rename_i hk
      simp_all
    · exact List.mem_cons_of_mem _ (ih h)

theorem cellsAbove_insert {m : List (Nat × β)} {lo a : Nat} (v : β) (hm : cellsAbove lo m = true) (ha : lo < a) :
    cellsAbove lo (cellsInsert m a v) = true := by
  induction m generalizing lo with
  | nil => simp [cellsInsert, cellsAbove, ha]
  | cons c m ih =>
    obtain ⟨k, w⟩ := c
    simp only [cellsAbove, Bool.and_eq_true, decide_eq_true_eq] at hm
    rw [cellsInsert]
    split
    · rename_i hak
      simp [cellsAbove, ha, hak, hm.2]
    · split
      · rename_i hak
        subst hak
        simp [cellsAbove, ha, hm.2]
      · have : k < a := by omega
        simp [cellsAbove, hm.1, ih hm.2 this]

/-- A write keeps the rising order. -/
theorem cellsRising_insert {m : List (Nat × β)} (a : Nat) (v : β) (hm : cellsRising m = true) :
    cellsRising (cellsInsert m a v) = true := by
  cases m with
  | nil => rfl
  | cons c m =>
    obtain ⟨k, w⟩ := c
    rw [cellsInsert]
    simp only [cellsRising] at hm
    split
    · rename_i hak
      simp [cellsRising, cellsAbove, hak, hm]
    · split
      · rename_i hak
        subst hak
        simpa [cellsRising] using hm
      · have : k < a := by omega
        simpa [cellsRising] using cellsAbove_insert v hm this

/-- Every entry after a write is the one written or was there before. -/
theorem mem_cellsInsert {m : List (Nat × β)} {a : Nat} {v : β} {c : Nat × β} (h : c ∈ cellsInsert m a v) :
    c = (a, v) ∨ c ∈ m := by
  induction m with
  | nil => simpa [cellsInsert] using h
  | cons d m ih =>
    obtain ⟨k, w⟩ := d
    rw [cellsInsert] at h
    split at h
    · simpa using h
    · split at h
      · rcases List.mem_cons.mp h with h | h
        · exact .inl h
        · exact .inr (List.mem_cons_of_mem _ h)
      · rcases List.mem_cons.mp h with h | h
        · exact .inr (by simp [h])
        · exact (ih h).imp_right (List.mem_cons_of_mem _)

end Sys2Proof.Machine
end

