-- ==== Sys2Proof/Laws/Encoding.lean ====
section
/-! SUPPORT. The fields of an encoded word, format by format (R71 to R83): each field of the encoder's word is what was put
there. -/

namespace Sys2Proof

/-- A slice of a concatenation that lies in its low part. -/
theorem extract_append_low {m n : Nat} (x : BitVec m) (y : BitVec n) {i w : Nat} (h : i + w ≤ n) :
    (x ++ y).extractLsb' i w = y.extractLsb' i w := by
  apply BitVec.eq_of_getLsbD_eq
  intro k hk
  have : i + k < n := by omega
  simp [BitVec.getLsbD_append, hk, this]

/-- A slice of a concatenation that lies in its high part. -/
theorem extract_append_high {m n : Nat} (x : BitVec m) (y : BitVec n) {i w : Nat} (h : n ≤ i) :
    (x ++ y).extractLsb' i w = x.extractLsb' (i - n) w := by
  apply BitVec.eq_of_getLsbD_eq
  intro k hk
  have h1 : ¬ i + k < n := by omega
  have h2 : i + k - n = i - n + k := by omega
  simp [BitVec.getLsbD_append, hk, h1, h2]

/-- The whole of a vector as a slice. -/
theorem extract_full {n : Nat} (x : BitVec n) : x.extractLsb' 0 n = x := by
  apply BitVec.eq_of_getLsbD_eq
  intro k hk
  simp [hk]

/-- Two neighbouring slices are one slice. -/
theorem extract_append_extract {n : Nat} (x : BitVec n) (i a b : Nat) :
    x.extractLsb' (i + b) a ++ x.extractLsb' i b = x.extractLsb' i (a + b) := by
  apply BitVec.eq_of_getLsbD_eq
  intro k hk
  rw [BitVec.getLsbD_append]
  by_cases h : k < b
  · simp [h, hk]
  · have h1 : k - b < a := by omega
    have h2 : i + b + (k - b) = i + k := by omega
    simp [h, hk, h1, h2]

/-- Concatenations mask part by part. -/
theorem append_and {m n : Nat} (x u : BitVec m) (y v : BitVec n) : (x ++ y) &&& (u ++ v) = (x &&& u) ++ (y &&& v) := by
  apply BitVec.eq_of_getLsbD_eq
  intro k _
  rw [BitVec.getLsbD_and, BitVec.getLsbD_append, BitVec.getLsbD_append, BitVec.getLsbD_append]
  split <;> rw [BitVec.getLsbD_and]

/-- The low bit of an even offset as a slice (R81, R82). -/
theorem evenOffset_slice {n : Nat} {off : BitVec n} (h : evenOffset off = true) : off.extractLsb' 0 1 = 0#1 := by
  apply BitVec.eq_of_getLsbD_eq
  intro k hk
  have : k = 0 := by omega
  subst this
  simpa [evenOffset] using h

theorem and_ones3 (x : BitVec 3) : x &&& 0b111#3 = x := BitVec.and_allOnes (x := x)
theorem and_ones7 (x : BitVec 7) : x &&& 0b1111111#7 = x := BitVec.and_allOnes (x := x)

section RFormat
variable (f7 : BitVec 7) (f3 : BitVec 3) (op : BitVec 7) (rd rs1 rs2 : RegIdx)

@[simp] theorem opcodeOf_encodeR : opcodeOf (encodeR f7 f3 op rd rs1 rs2) = op := by
  simp only [opcodeOf, encodeR]; rw [extract_append_low _ _ (by omega), extract_full]
@[simp] theorem rdOf_encodeR : rdOf (encodeR f7 f3 op rd rs1 rs2) = rd := by
  simp only [rdOf, encodeR]
  rw [extract_append_high _ _ (by omega), extract_append_low _ _ (by omega), extract_full]
@[simp] theorem funct3Of_encodeR : funct3Of (encodeR f7 f3 op rd rs1 rs2) = f3 := by
  simp only [funct3Of, encodeR]
  rw [extract_append_high _ _ (by omega), extract_append_high _ _ (by omega), extract_append_low _ _ (by omega),
    extract_full]
@[simp] theorem rs1Of_encodeR : rs1Of (encodeR f7 f3 op rd rs1 rs2) = rs1 := by
  simp only [rs1Of, encodeR]
  rw [extract_append_high _ _ (by omega), extract_append_high _ _ (by omega), extract_append_high _ _ (by omega),
    extract_append_low _ _ (by omega), extract_full]
@[simp] theorem rs2Of_encodeR : rs2Of (encodeR f7 f3 op rd rs1 rs2) = rs2 := by
  simp only [rs2Of, encodeR]
  rw [extract_append_high _ _ (by omega), extract_append_high _ _ (by omega), extract_append_high _ _ (by omega),
    extract_append_high _ _ (by omega), extract_append_low _ _ (by omega), extract_full]
@[simp] theorem shamtOf_encodeR : shamtOf (encodeR f7 f3 op rd rs1 rs2) = rs2 := rs2Of_encodeR f7 f3 op rd rs1 rs2
@[simp] theorem funct7Of_encodeR : funct7Of (encodeR f7 f3 op rd rs1 rs2) = f7 := by
  simp only [funct7Of, encodeR]
  rw [extract_append_high _ _ (by omega), extract_append_high _ _ (by omega), extract_append_high _ _ (by omega),
    extract_append_high _ _ (by omega), extract_append_high _ _ (by omega), extract_full]
end RFormat

section IFormat
variable (f3 : BitVec 3) (op : BitVec 7) (rd rs1 : RegIdx) (imm : BitVec 12)

@[simp] theorem opcodeOf_encodeI : opcodeOf (encodeI f3 op rd rs1 imm) = op := by
  simp only [opcodeOf, encodeI]; rw [extract_append_low _ _ (by omega), extract_full]
@[simp] theorem rdOf_encodeI : rdOf (encodeI f3 op rd rs1 imm) = rd := by
  simp only [rdOf, encodeI]
  rw [extract_append_high _ _ (by omega), extract_append_low _ _ (by omega), extract_full]
@[simp] theorem funct3Of_encodeI : funct3Of (encodeI f3 op rd rs1 imm) = f3 := by
  simp only [funct3Of, encodeI]
  rw [extract_append_high _ _ (by omega), extract_append_high _ _ (by omega), extract_append_low _ _ (by omega),
    extract_full]
@[simp] theorem rs1Of_encodeI : rs1Of (encodeI f3 op rd rs1 imm) = rs1 := by
  simp only [rs1Of, encodeI]
  rw [extract_append_high _ _ (by omega), extract_append_high _ _ (by omega), extract_append_high _ _ (by omega),
    extract_append_low _ _ (by omega), extract_full]
@[simp] theorem immIOf_encodeI : immIOf (encodeI f3 op rd rs1 imm) = imm := by
  simp only [immIOf, encodeI]
  rw [extract_append_high _ _ (by omega), extract_append_high _ _ (by omega), extract_append_high _ _ (by omega),
    extract_append_high _ _ (by omega), extract_full]
end IFormat

section SFormat
variable (f3 : BitVec 3) (op : BitVec 7) (rs1 rs2 : RegIdx) (imm : BitVec 12)

@[simp] theorem opcodeOf_encodeS : opcodeOf (encodeS f3 op rs1 rs2 imm) = op := by
  simp only [opcodeOf, encodeS]; rw [extract_append_low _ _ (by omega), extract_full]
@[simp] theorem funct3Of_encodeS : funct3Of (encodeS f3 op rs1 rs2 imm) = f3 := by
  simp only [funct3Of, encodeS]
  rw [extract_append_high _ _ (by omega), extract_append_high _ _ (by omega), extract_append_low _ _ (by omega),
    extract_full]
@[simp] theorem rs1Of_encodeS : rs1Of (encodeS f3 op rs1 rs2 imm) = rs1 := by
  simp only [rs1Of, encodeS]
  rw [extract_append_high _ _ (by omega), extract_append_high _ _ (by omega), extract_append_high _ _ (by omega),
    extract_append_low _ _ (by omega), extract_full]
@[simp] theorem rs2Of_encodeS : rs2Of (encodeS f3 op rs1 rs2 imm) = rs2 := by
  simp only [rs2Of, encodeS]
  rw [extract_append_high _ _ (by omega), extract_append_high _ _ (by omega), extract_append_high _ _ (by omega),
    extract_append_high _ _ (by omega), extract_append_low _ _ (by omega), extract_full]
@[simp] theorem immSOf_encodeS : immSOf (encodeS f3 op rs1 rs2 imm) = imm := by
  simp only [immSOf, encodeS]
  rw [extract_append_high _ _ (by omega), extract_append_high _ _ (by omega), extract_append_high _ _ (by omega),
    extract_append_high _ _ (by omega), extract_append_high _ _ (by omega), extract_full,
    extract_append_high (i := 7) _ _ (by omega), extract_append_low _ _ (by omega), extract_full]
  exact (extract_append_extract imm 0 7 5).trans (extract_full imm)
end SFormat

section BFormat
variable (f3 : BitVec 3) (op : BitVec 7) (rs1 rs2 : RegIdx) (off : BitVec 13)

@[simp] theorem opcodeOf_encodeB : opcodeOf (encodeB f3 op rs1 rs2 off) = op := by
  simp only [opcodeOf, encodeB]; rw [extract_append_low _ _ (by omega), extract_full]
@[simp] theorem funct3Of_encodeB : funct3Of (encodeB f3 op rs1 rs2 off) = f3 := by
  simp only [funct3Of, encodeB]
  rw [extract_append_high _ _ (by omega), extract_append_high _ _ (by omega), extract_append_high _ _ (by omega),
    extract_append_low _ _ (by omega), extract_full]
@[simp] theorem rs1Of_encodeB : rs1Of (encodeB f3 op rs1 rs2 off) = rs1 := by
  simp only [rs1Of, encodeB]
  rw [extract_append_high _ _ (by omega), extract_append_high _ _ (by omega), extract_append_high _ _ (by omega),
    extract_append_high _ _ (by omega), extract_append_low _ _ (by omega), extract_full]
@[simp] theorem rs2Of_encodeB : rs2Of (encodeB f3 op rs1 rs2 off) = rs2 := by
  simp only [rs2Of, encodeB]
  rw [extract_append_high _ _ (by omega), extract_append_high _ _ (by omega), extract_append_high _ _ (by omega),
    extract_append_high _ _ (by omega), extract_append_high _ _ (by omega), extract_append_low _ _ (by omega),
    extract_full]
/-- The B offset comes back but for bit 0, which the format does not hold (R81). -/
theorem immBOf_encodeB (h : evenOffset off = true) : immBOf (encodeB f3 op rs1 rs2 off) = off := by
  have h31 : (encodeB f3 op rs1 rs2 off).extractLsb' 31 1 = off.extractLsb' 12 1 := by
    simp only [encodeB]
    rw [extract_append_high _ _ (by omega), extract_append_high _ _ (by omega), extract_append_high _ _ (by omega),
      extract_append_high _ _ (by omega), extract_append_high _ _ (by omega), extract_append_high _ _ (by omega),
      extract_append_high _ _ (by omega), extract_full]
  have h7 : (encodeB f3 op rs1 rs2 off).extractLsb' 7 1 = off.extractLsb' 11 1 := by
    simp only [encodeB]
    rw [extract_append_high _ _ (by omega), extract_append_low _ _ (by omega), extract_full]
  have h25 : (encodeB f3 op rs1 rs2 off).extractLsb' 25 6 = off.extractLsb' 5 6 := by
    simp only [encodeB]
    rw [extract_append_high _ _ (by omega), extract_append_high _ _ (by omega), extract_append_high _ _ (by omega),
      extract_append_high _ _ (by omega), extract_append_high _ _ (by omega), extract_append_high _ _ (by omega),
      extract_append_low _ _ (by omega), extract_full]
  have h8 : (encodeB f3 op rs1 rs2 off).extractLsb' 8 4 = off.extractLsb' 1 4 := by
    simp only [encodeB]
    rw [extract_append_high _ _ (by omega), extract_append_high _ _ (by omega), extract_append_low _ _ (by omega),
      extract_full]
  rw [immBOf, h31, h7, h25, h8, ← evenOffset_slice h]
  rw [extract_append_extract off 11 1 1, extract_append_extract off 5 2 6, extract_append_extract off 1 8 4,
    extract_append_extract off 0 12 1]
  exact extract_full off
end BFormat

section JFormat
variable (op : BitVec 7) (rd : RegIdx) (off : BitVec 21)

@[simp] theorem opcodeOf_encodeJ : opcodeOf (encodeJ op rd off) = op := by
  simp only [opcodeOf, encodeJ]; rw [extract_append_low _ _ (by omega), extract_full]
@[simp] theorem rdOf_encodeJ : rdOf (encodeJ op rd off) = rd := by
  simp only [rdOf, encodeJ]
  rw [extract_append_high _ _ (by omega), extract_append_low _ _ (by omega), extract_full]
/-- The J offset comes back but for bit 0, which the format does not hold (R82). -/
theorem immJOf_encodeJ (h : evenOffset off = true) : immJOf (encodeJ op rd off) = off := by
  have h31 : (encodeJ op rd off).extractLsb' 31 1 = off.extractLsb' 20 1 := by
    simp only [encodeJ]
    rw [extract_append_high _ _ (by omega), extract_append_high _ _ (by omega), extract_append_high _ _ (by omega),
      extract_append_high _ _ (by omega), extract_append_high _ _ (by omega), extract_full]
  have h12 : (encodeJ op rd off).extractLsb' 12 8 = off.extractLsb' 12 8 := by
    simp only [encodeJ]
    rw [extract_append_high _ _ (by omega), extract_append_high _ _ (by omega), extract_append_low _ _ (by omega),
      extract_full]
  have h20 : (encodeJ op rd off).extractLsb' 20 1 = off.extractLsb' 11 1 := by
    simp only [encodeJ]
    rw [extract_append_high _ _ (by omega), extract_append_high _ _ (by omega), extract_append_high _ _ (by omega),
      extract_append_low _ _ (by omega), extract_full]
  have h21 : (encodeJ op rd off).extractLsb' 21 10 = off.extractLsb' 1 10 := by
    simp only [encodeJ]
    rw [extract_append_high _ _ (by omega), extract_append_high _ _ (by omega), extract_append_high _ _ (by omega),
      extract_append_high _ _ (by omega), extract_append_low _ _ (by omega), extract_full]
  rw [immJOf, h31, h12, h20, h21, ← evenOffset_slice h]
  rw [extract_append_extract off 12 1 8, extract_append_extract off 11 9 1, extract_append_extract off 1 10 10,
    extract_append_extract off 0 20 1]
  exact extract_full off
end JFormat

section UFormat
variable (op : BitVec 7) (rd : RegIdx) (imm : BitVec 20)

@[simp] theorem opcodeOf_encodeU : opcodeOf (encodeU op rd imm) = op := by
  simp only [opcodeOf, encodeU]; rw [extract_append_low _ _ (by omega), extract_full]
@[simp] theorem rdOf_encodeU : rdOf (encodeU op rd imm) = rd := by
  simp only [rdOf, encodeU]
  rw [extract_append_high _ _ (by omega), extract_append_low _ _ (by omega), extract_full]
@[simp] theorem immUOf_encodeU : immUOf (encodeU op rd imm) = imm := by
  simp only [immUOf, encodeU]
  rw [extract_append_high _ _ (by omega), extract_append_high _ _ (by omega), extract_full]
end UFormat

/-! ## The fixed bits of each format under its mask (95_test_vectors.md 2.1) -/

theorem encodeR_masked (f7 : BitVec 7) (f3 : BitVec 3) (op : BitVec 7) (rd rs1 rs2 : RegIdx) :
    encodeR f7 f3 op rd rs1 rs2 &&& 0xFE00707F#32 = encodeR f7 f3 op 0#5 0#5 0#5 := by
  have hm : 0xFE00707F#32 = (0x7F#7 ++ 0#5 ++ 0#5 ++ 7#3 ++ 0#5 ++ 0x7F#7 : BitVec 32) := by decide
  have h : (f7 ++ rs2 ++ rs1 ++ f3 ++ rd ++ op) &&&
      (0x7F#7 ++ 0#5 ++ 0#5 ++ 7#3 ++ 0#5 ++ 0x7F#7) =
      f7 ++ 0#5 ++ 0#5 ++ f3 ++ 0#5 ++ op := by
    simp only [append_and, BitVec.and_zero, and_ones3, and_ones7]
  rw [hm]
  exact h

theorem encodeI_masked (f3 : BitVec 3) (op : BitVec 7) (rd rs1 : RegIdx) (imm : BitVec 12) :
    encodeI f3 op rd rs1 imm &&& 0x0000707F#32 = encodeI f3 op 0#5 0#5 0#12 := by
  have hm : 0x0000707F#32 = (0#12 ++ 0#5 ++ 7#3 ++ 0#5 ++ 0x7F#7 : BitVec 32) := by decide
  have h : (imm ++ rs1 ++ f3 ++ rd ++ op) &&&
      (0#12 ++ 0#5 ++ 7#3 ++ 0#5 ++ 0x7F#7) =
      0#12 ++ 0#5 ++ f3 ++ 0#5 ++ op := by
    simp only [append_and, BitVec.and_zero, and_ones3, and_ones7]
  rw [hm]
  exact h

theorem encodeS_masked (f3 : BitVec 3) (op : BitVec 7) (rs1 rs2 : RegIdx) (imm : BitVec 12) :
    encodeS f3 op rs1 rs2 imm &&& 0x0000707F#32 = encodeS f3 op 0#5 0#5 0#12 := by
  have hm : 0x0000707F#32 = (0#7 ++ 0#5 ++ 0#5 ++ 7#3 ++ 0#5 ++ 0x7F#7 : BitVec 32) := by decide
  have h : (imm.extractLsb' 5 7 ++ rs2 ++ rs1 ++ f3 ++ imm.extractLsb' 0 5 ++ op) &&&
      (0#7 ++ 0#5 ++ 0#5 ++ 7#3 ++ 0#5 ++ 0x7F#7) =
      0#7 ++ 0#5 ++ 0#5 ++ f3 ++ 0#5 ++ op := by
    simp only [append_and, BitVec.and_zero, and_ones3, and_ones7]
  rw [hm]
  exact h

theorem encodeB_masked (f3 : BitVec 3) (op : BitVec 7) (rs1 rs2 : RegIdx) (off : BitVec 13) :
    encodeB f3 op rs1 rs2 off &&& 0x0000707F#32 = encodeB f3 op 0#5 0#5 0#13 := by
  have hm : 0x0000707F#32 = (0#1 ++ 0#6 ++ 0#5 ++ 0#5 ++ 7#3 ++ 0#4 ++ 0#1 ++ 0x7F#7 : BitVec 32) := by decide
  have h : (off.extractLsb' 12 1 ++ off.extractLsb' 5 6 ++ rs2 ++ rs1 ++ f3 ++ off.extractLsb' 1 4 ++ off.extractLsb' 11 1 ++ op) &&&
      (0#1 ++ 0#6 ++ 0#5 ++ 0#5 ++ 7#3 ++ 0#4 ++ 0#1 ++ 0x7F#7) =
      0#1 ++ 0#6 ++ 0#5 ++ 0#5 ++ f3 ++ 0#4 ++ 0#1 ++ op := by
    simp only [append_and, BitVec.and_zero, and_ones3, and_ones7]
  rw [hm]
  exact h

theorem encodeJ_masked (op : BitVec 7) (rd : RegIdx) (off : BitVec 21) :
    encodeJ op rd off &&& 0x0000007F#32 = encodeJ op 0#5 0#21 := by
  have hm : 0x0000007F#32 = (0#1 ++ 0#10 ++ 0#1 ++ 0#8 ++ 0#5 ++ 0x7F#7 : BitVec 32) := by decide
  have h : (off.extractLsb' 20 1 ++ off.extractLsb' 1 10 ++ off.extractLsb' 11 1 ++ off.extractLsb' 12 8 ++ rd ++ op) &&&
      (0#1 ++ 0#10 ++ 0#1 ++ 0#8 ++ 0#5 ++ 0x7F#7) =
      0#1 ++ 0#10 ++ 0#1 ++ 0#8 ++ 0#5 ++ op := by
    simp only [append_and, BitVec.and_zero, and_ones7]
  rw [hm]
  exact h

theorem encodeU_masked (op : BitVec 7) (rd : RegIdx) (imm : BitVec 20) :
    encodeU op rd imm &&& 0x0000007F#32 = encodeU op 0#5 0#20 := by
  have hm : 0x0000007F#32 = (0#20 ++ 0#5 ++ 0x7F#7 : BitVec 32) := by decide
  have h : (imm ++ rd ++ op) &&&
      (0#20 ++ 0#5 ++ 0x7F#7) =
      0#20 ++ 0#5 ++ op := by
    simp only [append_and, BitVec.and_zero, and_ones7]
  rw [hm]
  exact h

end Sys2Proof
end

