-- ==== Sys2Proof/Laws/State.lean ====
section
/-! SUPPORT. One lemma per field per update of the state, and the register file's read after write (R11, R22). -/

namespace Sys2Proof.Machine

@[simp] theorem setPc_regs (s : State) (p : Word) : (setPc s p).regs = s.regs := rfl
@[simp] theorem setPc_pc (s : State) (p : Word) : (setPc s p).pc = p := rfl
@[simp] theorem setPc_mem (s : State) (p : Word) : (setPc s p).mem = s.mem := rfl
@[simp] theorem setPc_params (s : State) (p : Word) : (setPc s p).params = s.params := rfl

@[simp] theorem advance_regs (s : State) : (advance s).regs = s.regs := rfl
@[simp] theorem advance_pc (s : State) : (advance s).pc = s.pc + 4#32 := rfl
@[simp] theorem advance_mem (s : State) : (advance s).mem = s.mem := rfl
@[simp] theorem advance_params (s : State) : (advance s).params = s.params := rfl

@[simp] theorem writeReg_pc (s : State) (i : RegIdx) (v : Word) : (writeReg s i v).pc = s.pc := by
  unfold writeReg; split <;> rfl
@[simp] theorem writeReg_mem (s : State) (i : RegIdx) (v : Word) : (writeReg s i v).mem = s.mem := by
  unfold writeReg; split <;> rfl
@[simp] theorem writeReg_params (s : State) (i : RegIdx) (v : Word) : (writeReg s i v).params = s.params := by
  unfold writeReg; split <;> rfl

@[simp] theorem placeWord_regs (s : State) (a w : Word) : (placeWord s a w).regs = s.regs := rfl
@[simp] theorem placeWord_pc (s : State) (a w : Word) : (placeWord s a w).pc = s.pc := rfl
@[simp] theorem placeWord_mem (s : State) (a w : Word) : (placeWord s a w).mem = s.mem := rfl
@[simp] theorem placeWord_memMap (s : State) (a w : Word) : (placeWord s a w).params.memMap = s.params.memMap := rfl

@[simp] theorem resetWith_regs (p : Params) (pc : Word) (r : Vector Word 31) (m : Memory) :
    (State.resetWith p pc r m).regs = r := rfl
@[simp] theorem resetWith_pc (p : Params) (pc : Word) (r : Vector Word 31) (m : Memory) :
    (State.resetWith p pc r m).pc = pc := rfl
@[simp] theorem resetWith_mem (p : Params) (pc : Word) (r : Vector Word 31) (m : Memory) :
    (State.resetWith p pc r m).mem = m := rfl
@[simp] theorem resetWith_params (p : Params) (pc : Word) (r : Vector Word 31) (m : Memory) :
    (State.resetWith p pc r m).params = p := rfl

/-- Reads see the registers alone. -/
theorem readReg_of_regs {s t : State} (h : t.regs = s.regs) (i : RegIdx) : readReg t i = readReg s i := by
  simp [readReg, h]

@[simp] theorem readReg_setPc (s : State) (p : Word) (i : RegIdx) : readReg (setPc s p) i = readReg s i := rfl
@[simp] theorem readReg_advance (s : State) (i : RegIdx) : readReg (advance s) i = readReg s i := rfl
@[simp] theorem readReg_placeWord (s : State) (a w : Word) (i : RegIdx) :
    readReg (placeWord s a w) i = readReg s i := rfl

/-- A read sees memory alone. -/
theorem readByte_of_mem {s t : State} (h : t.mem = s.mem) (a : Nat) : readByte t a = readByte s a := by
  simp [readByte, h]

@[simp] theorem readByte_setPc (s : State) (p : Word) (a : Nat) : readByte (setPc s p) a = readByte s a := rfl
@[simp] theorem readByte_advance (s : State) (a : Nat) : readByte (advance s) a = readByte s a := rfl
@[simp] theorem readByte_writeReg (s : State) (i : RegIdx) (v : Word) (a : Nat) :
    readByte (writeReg s i v) a = readByte s a := by simp [readByte]

@[simp] theorem mapped_setPc (s : State) (p : Word) (a : Nat) : mapped (setPc s p) a = mapped s a := rfl
@[simp] theorem mapped_advance (s : State) (a : Nat) : mapped (advance s) a = mapped s a := rfl
@[simp] theorem mapped_writeReg (s : State) (i : RegIdx) (v : Word) (a : Nat) :
    mapped (writeReg s i v) a = mapped s a := by simp [mapped]

theorem regIdx_ne_zero_iff (i : RegIdx) : i ≠ 0#5 ↔ i.toNat ≠ 0 := by
  rw [ne_eq, ← BitVec.toNat_inj]; simp

/-- `x0` reads as zero (R22). -/
@[simp] theorem readReg_x0 (s : State) : readReg s 0#5 = 0#32 := by simp [readReg]

/-- A write to `x0` is discarded (R22). -/
@[simp] theorem writeReg_x0 (s : State) (v : Word) : writeReg s 0#5 v = s := by simp [writeReg]

/-- A register other than `x0` reads as last written (R11). -/
theorem readReg_writeReg_same (s : State) {i : RegIdx} (v : Word) (h : i ≠ 0#5) :
    readReg (writeReg s i v) i = v := by
  have h0 := (regIdx_ne_zero_iff i).mp h
  simp [readReg, writeReg, h0]

/-- A write leaves every other register alone (R11). -/
theorem readReg_writeReg_ne (s : State) {i j : RegIdx} (v : Word) (h : j ≠ i) :
    readReg (writeReg s i v) j = readReg s j := by
  by_cases hi : i.toNat = 0
  · simp [writeReg, hi]
  · by_cases hj : j.toNat = 0
    · simp [readReg, hj]
    · have hne : i.toNat - 1 ≠ j.toNat - 1 := by
        intro h'
        exact h (BitVec.eq_of_toNat_eq (by omega))
      simp [readReg, writeReg, hi, hj, hne]

/-- Both cases of a read after a write (R11). -/
theorem readReg_writeReg (s : State) (i j : RegIdx) (v : Word) :
    readReg (writeReg s i v) j = if j = i ∧ i ≠ 0#5 then v else readReg s j := by
  by_cases hji : j = i
  · subst hji
    by_cases h0 : j = 0#5
    · subst h0; simp
    · simp [h0, readReg_writeReg_same s v h0]
  · simp [hji, readReg_writeReg_ne s v hji]

end Sys2Proof.Machine
end

