-- ==== Sys2Proof/Laws/Memory.lean ====
section
/-! SUPPORT. The laws of data memory: read after write byte by byte, the canonical form every write keeps, and what
`MemRead` and `MemWrite` can answer (R44, R45). -/

namespace Sys2Proof.Machine

/-- After a write of bytes, the written addresses hold them and every other address is as before. -/
theorem cellsFind_writeBytes (bs : List Byte) : ∀ (m : Memory) (a x : Nat),
    cellsFind (writeBytes m a bs) x = if a ≤ x ∧ x < a + bs.length then bs[x - a]? else cellsFind m x := by
  induction bs with
  | nil => intro m a x; simp [writeBytes]
  | cons b bs ih =>
    intro m a x
    rw [writeBytes, ih]
    by_cases hx : x = a
    · subst hx
      simp
    · rw [cellsFind_insert_ne m b hx]
      by_cases h1 : a + 1 ≤ x ∧ x < a + 1 + bs.length
      · have h2 : a ≤ x ∧ x < a + (b :: bs).length := by simp only [List.length_cons]; omega
        have h3 : x - a = (x - (a + 1)) + 1 := by omega
        rw [if_pos h1, if_pos h2, h3, List.getElem?_cons_succ]
      · have h2 : ¬ (a ≤ x ∧ x < a + (b :: bs).length) := by simp only [List.length_cons]; omega
        rw [if_neg h1, if_neg h2]

/-- The bytes read are those the addresses hold, all of them present. -/
theorem readBytes_eq_some_iff (m : Memory) (n : Nat) : ∀ (a : Nat) (bs : List Byte),
    readBytes m a n = some bs ↔ bs.length = n ∧ ∀ k < n, cellsFind m (a + k) = bs[k]? := by
  induction n with
  | zero => intro a bs; cases bs <;> simp [readBytes]
  | succ n ih =>
    intro a bs
    rw [readBytes]
    constructor
    · intro h
      split at h
      · rename_i b bs' hb hbs
        obtain ⟨hl, hk⟩ := (ih _ _).mp hbs
        cases h
        refine ⟨by simp [hl], fun k hk' => ?_⟩
        cases k with
        | zero => simpa using hb
        | succ k =>
          have := hk k (by omega)
          rw [List.getElem?_cons_succ, ← this]
          congr 1; omega
      · cases h
    · rintro ⟨hl, hk⟩
      cases bs with
      | nil => simp at hl
      | cons b bs =>
        have h0 := hk 0 (by omega)
        simp only [Nat.add_zero, List.getElem?_cons_zero] at h0
        have h1 : readBytes m (a + 1) n = some bs := (ih _ _).mpr ⟨by simpa using hl, fun k hk' => by
          have := hk (k + 1) (by omega)
          rw [List.getElem?_cons_succ] at this
          rw [← this]; congr 1; omega⟩
        simp [h0, h1]

/-- A read of bytes fails exactly where one of them holds no value. -/
theorem readBytes_eq_none_iff (m : Memory) (n : Nat) : ∀ a : Nat,
    readBytes m a n = none ↔ ∃ k < n, cellsFind m (a + k) = none := by
  induction n with
  | zero => intro a; simp [readBytes]
  | succ n ih =>
    intro a
    rw [readBytes]
    constructor
    · intro h
      cases h0 : cellsFind m a with
      | none => exact ⟨0, by omega, by simpa using h0⟩
      | some b =>
        cases h1 : readBytes m (a + 1) n with
        | none =>
          obtain ⟨k, hk, hn⟩ := (ih _).mp h1
          exact ⟨k + 1, by omega, by rw [← hn]; congr 1; omega⟩
        | some bs => simp [h0, h1] at h
    · rintro ⟨k, hk, hn⟩
      cases k with
      | zero => simp only [Nat.add_zero] at hn; simp [hn]
      | succ k =>
        have h1 : readBytes m (a + 1) n = none :=
          (ih _).mpr ⟨k, by omega, by rw [← hn]; congr 1; omega⟩
        cases h0 : cellsFind m a <;> simp [h1]

@[simp] theorem leBytes_length {w : Nat} (v : BitVec w) (n : Nat) : (leBytes v n).length = n := by
  simp [leBytes]

/-- Byte `k` of a stored value is `v[8k+7:8k]` (R45). -/
theorem leBytes_getElem? {w : Nat} (v : BitVec w) {n k : Nat} (h : k < n) :
    (leBytes v n)[k]? = some (v.extractLsb' (8 * k) 8) := by
  simp [leBytes, h]

theorem allMapped_iff (s : State) (a n : Nat) :
    allMapped s a n = true ↔ ∀ k < n, mapped s (a + k) = true := by
  simp only [allMapped, List.all_eq_true, List.mem_range'_1]
  constructor
  · intro h k hk; exact h _ ⟨by omega, by omega⟩
  · intro h x hx; have := h (x - a) (by omega); rwa [Nat.add_sub_cancel' hx.1] at this

/-- All that `MemRead` can answer (R44). -/
theorem memRead_ok {s : State} {addr : Word} {n : Nat} {v : BitVec (8 * n)} (h : memRead s addr n = .ok v) :
    addr.toNat % n = 0 ∧ allMapped s addr.toNat n = true ∧
      ∃ bs, readBytes s.mem addr.toNat n = some bs ∧ v = BitVec.ofNat (8 * n) (leNat bs) := by
  unfold memRead at h
  split at h
  · cases h
  · rename_i h1
    split at h
    · cases h
    · rename_i h2
      split at h
      · cases h
      · rename_i bs hb
        cases h
        exact ⟨by omega, by simpa using h2, bs, hb, rfl⟩

/-- All that `MemWrite` can answer (R45). -/
theorem memWrite_ok {s t : State} {addr : Word} {n : Nat} {v : BitVec (8 * n)} (h : memWrite s addr n v = .ok t) :
    addr.toNat % n = 0 ∧ allMapped s addr.toNat n = true ∧
      t = { s with mem := writeBytes s.mem addr.toNat (leBytes v n) } := by
  unfold memWrite at h
  split at h
  · cases h
  · rename_i h1
    split at h
    · cases h
    · rename_i h2
      cases h
      exact ⟨by omega, by simpa using h2, rfl⟩

/-- `MemRead` answers when the three checks pass (R44). -/
theorem memRead_of_bytes {s : State} {addr : Word} {n : Nat} {bs : List Byte} (h1 : addr.toNat % n = 0)
    (h2 : allMapped s addr.toNat n = true) (h3 : readBytes s.mem addr.toNat n = some bs) :
    memRead s addr n = .ok (BitVec.ofNat (8 * n) (leNat bs)) := by
  simp [memRead, h1, h2, h3]

/-- `MemWrite` answers when the two checks pass (R45). -/
theorem memWrite_of_mapped {s : State} {addr : Word} {n : Nat} (v : BitVec (8 * n)) (h1 : addr.toNat % n = 0)
    (h2 : allMapped s addr.toNat n = true) :
    memWrite s addr n v = .ok { s with mem := writeBytes s.mem addr.toNat (leBytes v n) } := by
  simp [memWrite, h1, h2]

/-- An access with a byte outside `MEM_MAP` is not all mapped. -/
theorem allMapped_eq_false {s : State} {a n : Nat} (h : ∃ k < n, mapped s (a + k) = false) :
    allMapped s a n = false := by
  obtain ⟨k, hk, hm⟩ := h
  by_contra hc
  have := (allMapped_iff s a n).mp (by simpa using hc) k hk
  rw [hm] at this
  cases this

/-- The first check of `MemRead` (R44, R205). -/
theorem memRead_misaligned {s : State} {addr : Word} {n : Nat} (h : addr.toNat % n ≠ 0) :
    memRead s addr n = .error (.loadAddressMisaligned addr) := by simp [memRead, h]

/-- The second check of `MemRead` (R44, R207). -/
theorem memRead_unmapped {s : State} {addr : Word} {n : Nat} (h : addr.toNat % n = 0)
    (hm : allMapped s addr.toNat n = false) : memRead s addr n = .error (.loadAccessFault addr) := by
  simp [memRead, h, hm]

/-- The third check of `MemRead` (R44). -/
theorem memRead_noValue {s : State} {addr : Word} {n : Nat} (h : addr.toNat % n = 0)
    (hm : allMapped s addr.toNat n = true) (hb : readBytes s.mem addr.toNat n = none) :
    memRead s addr n = .error (.uninitialisedRead addr) := by
  simp [memRead, h, hm, hb]

/-- The first check of `MemWrite` (R45, R206). -/
theorem memWrite_misaligned {s : State} {addr : Word} {n : Nat} (v : BitVec (8 * n)) (h : addr.toNat % n ≠ 0) :
    memWrite s addr n v = .error (.storeAddressMisaligned addr) := by simp [memWrite, h]

/-- The second check of `MemWrite` (R45, R208). -/
theorem memWrite_unmapped {s : State} {addr : Word} {n : Nat} (v : BitVec (8 * n)) (h : addr.toNat % n = 0)
    (hm : allMapped s addr.toNat n = false) : memWrite s addr n v = .error (.storeAccessFault addr) := by
  simp [memWrite, h, hm]

/-- A byte after a store: the stored byte inside the access, the old one outside (R45). -/
theorem readByte_memWrite {s t : State} {addr : Word} {n : Nat} {v : BitVec (8 * n)}
    (h : memWrite s addr n v = .ok t) (x : Nat) :
    readByte t x = if addr.toNat ≤ x ∧ x < addr.toNat + n then some (v.extractLsb' (8 * (x - addr.toNat)) 8)
      else readByte s x := by
  obtain ⟨-, -, rfl⟩ := memWrite_ok h
  simp only [readByte, cellsFind_writeBytes, leBytes_length]
  split
  · exact leBytes_getElem? v (by omega)
  · rfl

theorem memory_wf_insert {m : Memory} {a : Nat} (b : Byte) (ha : a < 2 ^ 32) (hm : Memory.wf m = true) :
    Memory.wf (cellsInsert m a b) = true := by
  simp only [Memory.wf, Bool.and_eq_true, List.all_eq_true, decide_eq_true_eq] at hm ⊢
  refine ⟨cellsRising_insert a b hm.1, fun c hc => ?_⟩
  rcases mem_cellsInsert hc with rfl | h
  · exact ha
  · exact hm.2 c h

/-- A write of bytes inside the address space keeps the canonical form. -/
theorem memory_wf_writeBytes (bs : List Byte) : ∀ {m : Memory} {a : Nat}, a + bs.length ≤ 2 ^ 32 →
    Memory.wf m = true → Memory.wf (writeBytes m a bs) = true := by
  induction bs with
  | nil => intro m a _ hm; exact hm
  | cons b bs ih =>
    intro m a ha hm
    simp only [List.length_cons] at ha
    exact ih (by omega) (memory_wf_insert b (by omega) hm)

/-- An aligned access of 1, 2 or 4 bytes does not run past the top of the address space (R44). -/
theorem aligned_access_fits (addr : Word) {n : Nat} (hn : n = 1 ∨ n = 2 ∨ n = 4) (h : addr.toNat % n = 0) :
    addr.toNat + n ≤ 2 ^ 32 := by
  have := addr.isLt
  rcases hn with rfl | rfl | rfl <;> omega

/-- `MemWrite` keeps the canonical form of memory. -/
theorem memWrite_wf {s t : State} {addr : Word} {n : Nat} {v : BitVec (8 * n)} (hn : n = 1 ∨ n = 2 ∨ n = 4)
    (h : memWrite s addr n v = .ok t) (hs : Memory.wf s.mem = true) : Memory.wf t.mem = true := by
  obtain ⟨h1, -, rfl⟩ := memWrite_ok h
  exact memory_wf_writeBytes _ (by simpa using aligned_access_fits addr hn h1) hs

/-- Memory after reset is in canonical form. -/
theorem reset_memory_wf : Memory.wf State.reset.mem = true := rfl

end Sys2Proof.Machine
end

