-- ==== Sys2Proof/Laws/Ops.lean ====
section
/-! SUPPORT. Once for each shared operation, all it can do: if it answers a next state, what that state is; and when it
answers one. -/

namespace Sys2Proof.Machine

/-- `writeBack` always completes (R26, R100). -/
theorem writeBack_eq (s : State) (rd : RegIdx) (v : Word) : writeBack s rd v = .next (advance (writeReg s rd v)) := rfl

theorem writeBack_next {s t : State} {rd : RegIdx} {v : Word} (h : writeBack s rd v = .next t) :
    t = advance (writeReg s rd v) := by
  rw [writeBack_eq] at h; injection h with h; exact h.symm

/-- Under `wrap` the checked write is the plain one (R116). -/
theorem writeBackChecked_wrap {s : State} (h : s.params.overflowPolicy = .wrap) (rd : RegIdx) (o : Bool) (v : Word) :
    writeBackChecked s rd o v = writeBack s rd v := by simp [writeBackChecked, h]

/-- Under `fault` the checked write raises exactly on overflow (R116, R211). -/
theorem writeBackChecked_fault {s : State} (h : s.params.overflowPolicy = .fault) (rd : RegIdx) (o : Bool) (v : Word) :
    writeBackChecked s rd o v = if o then raise (.arithmeticOverflow s.pc) else writeBack s rd v := by
  cases o <;> simp [writeBackChecked, h]

/-- The checked write either does the plain write or raises `ArithmeticOverflow(pc)` under `fault`. -/
theorem writeBackChecked_cases (s : State) (rd : RegIdx) (o : Bool) (v : Word) :
    writeBackChecked s rd o v = writeBack s rd v ∨
      (s.params.overflowPolicy = .fault ∧ o = true ∧
        writeBackChecked s rd o v = .fault (.arithmeticOverflow s.pc)) := by
  cases hp : s.params.overflowPolicy with
  | wrap => exact .inl (writeBackChecked_wrap hp rd o v)
  | fault =>
    rw [writeBackChecked_fault hp]
    cases o
    · exact .inl rfl
    · exact .inr ⟨rfl, rfl, rfl⟩

theorem writeBackChecked_next {s t : State} {rd : RegIdx} {o : Bool} {v : Word}
    (h : writeBackChecked s rd o v = .next t) : t = advance (writeReg s rd v) := by
  rcases writeBackChecked_cases s rd o v with h' | ⟨-, -, h'⟩
  · exact writeBack_next (h' ▸ h)
  · rw [h'] at h; cases h

/-- A load that answers a next state wrote the widened value it read and moved to the next instruction (R140). -/
theorem load_next {s t : State} {rd rs1 : RegIdx} {off : Word} {n : Nat} {widen : BitVec (8 * n) → Word}
    (h : load s rd rs1 off n widen = .next t) :
    ∃ v, memRead s (readReg s rs1 + off) n = .ok v ∧ t = advance (writeReg s rd (widen v)) := by
  unfold load orRaise at h
  split at h
  · rename_i v hv; exact ⟨v, hv, writeBack_next h⟩
  · cases h

/-- A store that answers a next state did one `MemWrite` and moved to the next instruction (R160). -/
theorem store_next {s t : State} {rs1 rs2 : RegIdx} {off : Word} {n : Nat} (h : store s rs1 rs2 off n = .next t) :
    ∃ u, memWrite s (readReg s rs1 + off) n ((readReg s rs2).setWidth (8 * n)) = .ok u ∧ t = advance u := by
  unfold store orRaise at h
  split at h
  · rename_i u hu; injection h with h; exact ⟨u, hu, h.symm⟩
  · cases h

/-- A branch that answers a next state was not taken, or went to an aligned target (R170). -/
theorem branch_next {s t : State} {taken : Bool} {off : Word} (h : branch s taken off = .next t) :
    (taken = false ∧ t = advance s) ∨
      (taken = true ∧ aligned4 (s.pc + off) = true ∧ t = setPc s (s.pc + off)) := by
  unfold branch at h
  split at h
  · rename_i htk
    split at h
    · rename_i hal; injection h with h; exact .inr ⟨htk, hal, h.symm⟩
    · cases h
  · rename_i htk; injection h with h; exact .inl ⟨by simpa using htk, h.symm⟩

/-- A jump that answers a next state linked and went to an aligned target (R180). -/
theorem jumpAndLink_next {s t : State} {rd : RegIdx} {target : Word} (h : jumpAndLink s rd target = .next t) :
    aligned4 target = true ∧ t = setPc (writeReg s rd (s.pc + 4#32)) target := by
  unfold jumpAndLink at h
  split at h
  · rename_i hal; injection h with h; exact ⟨hal, h.symm⟩
  · cases h

/-- `a[1:0] = 0` says the address is a multiple of 4 (R25, R48). -/
theorem aligned4_iff (a : Word) : aligned4 a = true ↔ a.toNat % 4 = 0 := by
  simp [aligned4, ← BitVec.toNat_inj, BitVec.extractLsb'_toNat]

/-- The pc stays a multiple of 4 when it advances (R27). -/
theorem aligned4_add_four (a : Word) : aligned4 (a + 4#32) = aligned4 a := by
  rw [Bool.eq_iff_iff, aligned4_iff, aligned4_iff]
  simp only [BitVec.toNat_add, BitVec.toNat_ofNat]
  omega

/-- The fetch answers the word `PROG` holds (R46). -/
theorem fetch_ok_iff (s : State) (addr w : Word) :
    fetch s addr = .ok w ↔ cellsFind s.params.prog addr.toNat = some w := by
  unfold fetch
  split <;> simp_all

/-- A step that answers a next state fetched at an aligned pc, decoded, and executed (R25). -/
theorem step_next {s t : State} (h : step s = .next t) :
    aligned4 s.pc = true ∧ ∃ w i, fetch s s.pc = .ok w ∧ decode w = .ok i ∧ exec i s = .next t := by
  unfold step at h
  split at h
  · rename_i hal
    refine ⟨hal, ?_⟩
    unfold orRaise at h
    split at h
    · rename_i w hw
      beta_reduce at h
      cases hd : decode w with
      | ok i => rw [hd] at h; exact ⟨w, i, hw, hd, h⟩
      | error r => rw [hd] at h; cases h
    · cases h
  · cases h

end Sys2Proof.Machine
end

