-- ==== Sys2Proof/Laws/PerInstr.lean ====
section
/-! SUPPORT. Per instruction: its encoding has the fixed bits of its row in spec/opcode_table.json. -/

namespace Sys2Proof.Laws

/-- The word of `i` matches `i`'s row: `w &&& mask = value` (95_test_vectors.md 2.1). -/
def EncodingFitsRow.Statement (i : Instr) : Prop := encode i &&& (opcodeRow i).mask = (opcodeRow i).value

theorem EncodingFitsRow.add (rd : RegIdx) (rs1 : RegIdx) (rs2 : RegIdx) :
    EncodingFitsRow.Statement (.add rd rs1 rs2) :=
  (encodeR_masked _ _ _ _ _ _).trans rfl
theorem EncodingFitsRow.mul (rd : RegIdx) (rs1 : RegIdx) (rs2 : RegIdx) :
    EncodingFitsRow.Statement (.mul rd rs1 rs2) :=
  (encodeR_masked _ _ _ _ _ _).trans rfl
theorem EncodingFitsRow.addu (rd : RegIdx) (rs1 : RegIdx) (rs2 : RegIdx) :
    EncodingFitsRow.Statement (.addu rd rs1 rs2) :=
  (encodeR_masked _ _ _ _ _ _).trans rfl
theorem EncodingFitsRow.sub (rd : RegIdx) (rs1 : RegIdx) (rs2 : RegIdx) :
    EncodingFitsRow.Statement (.sub rd rs1 rs2) :=
  (encodeR_masked _ _ _ _ _ _).trans rfl
theorem EncodingFitsRow.subu (rd : RegIdx) (rs1 : RegIdx) (rs2 : RegIdx) :
    EncodingFitsRow.Statement (.subu rd rs1 rs2) :=
  (encodeR_masked _ _ _ _ _ _).trans rfl
theorem EncodingFitsRow.sll (rd : RegIdx) (rs1 : RegIdx) (rs2 : RegIdx) :
    EncodingFitsRow.Statement (.sll rd rs1 rs2) :=
  (encodeR_masked _ _ _ _ _ _).trans rfl
theorem EncodingFitsRow.slt (rd : RegIdx) (rs1 : RegIdx) (rs2 : RegIdx) :
    EncodingFitsRow.Statement (.slt rd rs1 rs2) :=
  (encodeR_masked _ _ _ _ _ _).trans rfl
theorem EncodingFitsRow.sltu (rd : RegIdx) (rs1 : RegIdx) (rs2 : RegIdx) :
    EncodingFitsRow.Statement (.sltu rd rs1 rs2) :=
  (encodeR_masked _ _ _ _ _ _).trans rfl
theorem EncodingFitsRow.xor (rd : RegIdx) (rs1 : RegIdx) (rs2 : RegIdx) :
    EncodingFitsRow.Statement (.xor rd rs1 rs2) :=
  (encodeR_masked _ _ _ _ _ _).trans rfl
theorem EncodingFitsRow.div (rd : RegIdx) (rs1 : RegIdx) (rs2 : RegIdx) :
    EncodingFitsRow.Statement (.div rd rs1 rs2) :=
  (encodeR_masked _ _ _ _ _ _).trans rfl
theorem EncodingFitsRow.srl (rd : RegIdx) (rs1 : RegIdx) (rs2 : RegIdx) :
    EncodingFitsRow.Statement (.srl rd rs1 rs2) :=
  (encodeR_masked _ _ _ _ _ _).trans rfl
theorem EncodingFitsRow.sra (rd : RegIdx) (rs1 : RegIdx) (rs2 : RegIdx) :
    EncodingFitsRow.Statement (.sra rd rs1 rs2) :=
  (encodeR_masked _ _ _ _ _ _).trans rfl
theorem EncodingFitsRow.or (rd : RegIdx) (rs1 : RegIdx) (rs2 : RegIdx) :
    EncodingFitsRow.Statement (.or rd rs1 rs2) :=
  (encodeR_masked _ _ _ _ _ _).trans rfl
theorem EncodingFitsRow.rem (rd : RegIdx) (rs1 : RegIdx) (rs2 : RegIdx) :
    EncodingFitsRow.Statement (.rem rd rs1 rs2) :=
  (encodeR_masked _ _ _ _ _ _).trans rfl
theorem EncodingFitsRow.and (rd : RegIdx) (rs1 : RegIdx) (rs2 : RegIdx) :
    EncodingFitsRow.Statement (.and rd rs1 rs2) :=
  (encodeR_masked _ _ _ _ _ _).trans rfl
theorem EncodingFitsRow.addi (rd : RegIdx) (rs1 : RegIdx) (imm : BitVec 12) :
    EncodingFitsRow.Statement (.addi rd rs1 imm) :=
  (encodeI_masked _ _ _ _ _).trans rfl
theorem EncodingFitsRow.slli (rd : RegIdx) (rs1 : RegIdx) (shamt : BitVec 5) :
    EncodingFitsRow.Statement (.slli rd rs1 shamt) :=
  (encodeR_masked _ _ _ _ _ _).trans rfl
theorem EncodingFitsRow.slti (rd : RegIdx) (rs1 : RegIdx) (imm : BitVec 12) :
    EncodingFitsRow.Statement (.slti rd rs1 imm) :=
  (encodeI_masked _ _ _ _ _).trans rfl
theorem EncodingFitsRow.sltiu (rd : RegIdx) (rs1 : RegIdx) (imm : BitVec 12) :
    EncodingFitsRow.Statement (.sltiu rd rs1 imm) :=
  (encodeI_masked _ _ _ _ _).trans rfl
theorem EncodingFitsRow.xori (rd : RegIdx) (rs1 : RegIdx) (imm : BitVec 12) :
    EncodingFitsRow.Statement (.xori rd rs1 imm) :=
  (encodeI_masked _ _ _ _ _).trans rfl
theorem EncodingFitsRow.srli (rd : RegIdx) (rs1 : RegIdx) (shamt : BitVec 5) :
    EncodingFitsRow.Statement (.srli rd rs1 shamt) :=
  (encodeR_masked _ _ _ _ _ _).trans rfl
theorem EncodingFitsRow.srai (rd : RegIdx) (rs1 : RegIdx) (shamt : BitVec 5) :
    EncodingFitsRow.Statement (.srai rd rs1 shamt) :=
  (encodeR_masked _ _ _ _ _ _).trans rfl
theorem EncodingFitsRow.ori (rd : RegIdx) (rs1 : RegIdx) (imm : BitVec 12) :
    EncodingFitsRow.Statement (.ori rd rs1 imm) :=
  (encodeI_masked _ _ _ _ _).trans rfl
theorem EncodingFitsRow.andi (rd : RegIdx) (rs1 : RegIdx) (imm : BitVec 12) :
    EncodingFitsRow.Statement (.andi rd rs1 imm) :=
  (encodeI_masked _ _ _ _ _).trans rfl
theorem EncodingFitsRow.lb (rd : RegIdx) (rs1 : RegIdx) (imm : BitVec 12) :
    EncodingFitsRow.Statement (.lb rd rs1 imm) :=
  (encodeI_masked _ _ _ _ _).trans rfl
theorem EncodingFitsRow.lh (rd : RegIdx) (rs1 : RegIdx) (imm : BitVec 12) :
    EncodingFitsRow.Statement (.lh rd rs1 imm) :=
  (encodeI_masked _ _ _ _ _).trans rfl
theorem EncodingFitsRow.lw (rd : RegIdx) (rs1 : RegIdx) (imm : BitVec 12) :
    EncodingFitsRow.Statement (.lw rd rs1 imm) :=
  (encodeI_masked _ _ _ _ _).trans rfl
theorem EncodingFitsRow.lbu (rd : RegIdx) (rs1 : RegIdx) (imm : BitVec 12) :
    EncodingFitsRow.Statement (.lbu rd rs1 imm) :=
  (encodeI_masked _ _ _ _ _).trans rfl
theorem EncodingFitsRow.lhu (rd : RegIdx) (rs1 : RegIdx) (imm : BitVec 12) :
    EncodingFitsRow.Statement (.lhu rd rs1 imm) :=
  (encodeI_masked _ _ _ _ _).trans rfl
theorem EncodingFitsRow.ecall : EncodingFitsRow.Statement .ecall := rfl
theorem EncodingFitsRow.ebreak : EncodingFitsRow.Statement .ebreak := rfl
theorem EncodingFitsRow.sb (rs1 : RegIdx) (rs2 : RegIdx) (imm : BitVec 12) :
    EncodingFitsRow.Statement (.sb rs1 rs2 imm) :=
  (encodeS_masked _ _ _ _ _).trans rfl
theorem EncodingFitsRow.sh (rs1 : RegIdx) (rs2 : RegIdx) (imm : BitVec 12) :
    EncodingFitsRow.Statement (.sh rs1 rs2 imm) :=
  (encodeS_masked _ _ _ _ _).trans rfl
theorem EncodingFitsRow.sw (rs1 : RegIdx) (rs2 : RegIdx) (imm : BitVec 12) :
    EncodingFitsRow.Statement (.sw rs1 rs2 imm) :=
  (encodeS_masked _ _ _ _ _).trans rfl
theorem EncodingFitsRow.beq (rs1 : RegIdx) (rs2 : RegIdx) (off : BitVec 13) :
    EncodingFitsRow.Statement (.beq rs1 rs2 off) :=
  (encodeB_masked _ _ _ _ _).trans rfl
theorem EncodingFitsRow.bne (rs1 : RegIdx) (rs2 : RegIdx) (off : BitVec 13) :
    EncodingFitsRow.Statement (.bne rs1 rs2 off) :=
  (encodeB_masked _ _ _ _ _).trans rfl
theorem EncodingFitsRow.blt (rs1 : RegIdx) (rs2 : RegIdx) (off : BitVec 13) :
    EncodingFitsRow.Statement (.blt rs1 rs2 off) :=
  (encodeB_masked _ _ _ _ _).trans rfl
theorem EncodingFitsRow.bge (rs1 : RegIdx) (rs2 : RegIdx) (off : BitVec 13) :
    EncodingFitsRow.Statement (.bge rs1 rs2 off) :=
  (encodeB_masked _ _ _ _ _).trans rfl
theorem EncodingFitsRow.bltu (rs1 : RegIdx) (rs2 : RegIdx) (off : BitVec 13) :
    EncodingFitsRow.Statement (.bltu rs1 rs2 off) :=
  (encodeB_masked _ _ _ _ _).trans rfl
theorem EncodingFitsRow.bgeu (rs1 : RegIdx) (rs2 : RegIdx) (off : BitVec 13) :
    EncodingFitsRow.Statement (.bgeu rs1 rs2 off) :=
  (encodeB_masked _ _ _ _ _).trans rfl
theorem EncodingFitsRow.jal (rd : RegIdx) (off : BitVec 21) :
    EncodingFitsRow.Statement (.jal rd off) :=
  (encodeJ_masked _ _ _).trans rfl
theorem EncodingFitsRow.jalr (rd : RegIdx) (rs1 : RegIdx) (imm : BitVec 12) :
    EncodingFitsRow.Statement (.jalr rd rs1 imm) :=
  (encodeI_masked _ _ _ _ _).trans rfl
theorem EncodingFitsRow.lui (rd : RegIdx) (imm : BitVec 20) :
    EncodingFitsRow.Statement (.lui rd imm) :=
  (encodeU_masked _ _ _).trans rfl
theorem EncodingFitsRow.auipc (rd : RegIdx) (imm : BitVec 20) :
    EncodingFitsRow.Statement (.auipc rd imm) :=
  (encodeU_masked _ _ _).trans rfl

end Sys2Proof.Laws
end

