-- ==== Sys2Proof/Tests/Slice0.lean ====
section
/-! SUPPORT. Tests: ill-formed terms, one word of every instruction written out bit by bit, single steps, and a state and
operands for every statement that has hypotheses. Expected values come from the spec: the words from 95_test_vectors.md
2.2, the results from the rules' examples and corner cases and from 95_test_vectors.md 3 and 4. -/

namespace Sys2Proof.Tests

open Machine Claims

/-! ## WellFormed: an odd offset is no operand (R81, R82) -/

theorem test_wellFormed_beq_odd : (Instr.beq 1#5 2#5 0x1FFF#13).wellFormed = false := by decide
theorem test_wellFormed_bne_odd : (Instr.bne 1#5 2#5 0x1FFF#13).wellFormed = false := by decide
theorem test_wellFormed_blt_odd : (Instr.blt 1#5 2#5 0x1FFF#13).wellFormed = false := by decide
theorem test_wellFormed_bge_odd : (Instr.bge 1#5 2#5 0x1FFF#13).wellFormed = false := by decide
theorem test_wellFormed_bltu_odd : (Instr.bltu 1#5 2#5 0x1FFF#13).wellFormed = false := by decide
theorem test_wellFormed_bgeu_odd : (Instr.bgeu 1#5 2#5 0x1FFF#13).wellFormed = false := by decide
theorem test_wellFormed_jal_odd : (Instr.jal 1#5 1#21).wellFormed = false := by decide
theorem test_wellFormed_jal_even : (Instr.jal 1#5 0x100000#21).wellFormed = true := by decide

/-! ## Decoding: one word of every instruction, bit 31 first -/

theorem test_decode_add : decode 0b00000000001000001000000110110011#32 = .ok (.add 3#5 1#5 2#5) := by decide
theorem test_decode_mul : decode 0b00000010001000001000000110110011#32 = .ok (.mul 3#5 1#5 2#5) := by decide
theorem test_decode_addu : decode 0b00000100001000001000000110110011#32 = .ok (.addu 3#5 1#5 2#5) := by decide
theorem test_decode_sub : decode 0b01000000001000001000000110110011#32 = .ok (.sub 3#5 1#5 2#5) := by decide
theorem test_decode_subu : decode 0b00001000001000001000000110110011#32 = .ok (.subu 3#5 1#5 2#5) := by decide
theorem test_decode_sll : decode 0b00000000001000001001000110110011#32 = .ok (.sll 3#5 1#5 2#5) := by decide
theorem test_decode_slt : decode 0b00000000001000001010000110110011#32 = .ok (.slt 3#5 1#5 2#5) := by decide
theorem test_decode_sltu : decode 0b00000000001000001011000110110011#32 = .ok (.sltu 3#5 1#5 2#5) := by decide
theorem test_decode_xor : decode 0b00000000001000001100000110110011#32 = .ok (.xor 3#5 1#5 2#5) := by decide
theorem test_decode_div : decode 0b00000010001000001100000110110011#32 = .ok (.div 3#5 1#5 2#5) := by decide
theorem test_decode_srl : decode 0b00000000001000001101000110110011#32 = .ok (.srl 3#5 1#5 2#5) := by decide
theorem test_decode_sra : decode 0b01000000001000001101000110110011#32 = .ok (.sra 3#5 1#5 2#5) := by decide
theorem test_decode_or : decode 0b00000000001000001110000110110011#32 = .ok (.or 3#5 1#5 2#5) := by decide
theorem test_decode_rem : decode 0b00000010001000001110000110110011#32 = .ok (.rem 3#5 1#5 2#5) := by decide
theorem test_decode_and : decode 0b00000001010101010111100010110011#32 = .ok (.and 17#5 10#5 21#5) := by decide
theorem test_decode_addi : decode 0b11111111111100001000000110010011#32 = .ok (.addi 3#5 1#5 0xFFF#12) := by decide
theorem test_decode_slli : decode 0b00000001111100001001000110010011#32 = .ok (.slli 3#5 1#5 31#5) := by decide
theorem test_decode_slti : decode 0b11111111111100001010000110010011#32 = .ok (.slti 3#5 1#5 0xFFF#12) := by decide
theorem test_decode_sltiu : decode 0b11111111111100001011000110010011#32 = .ok (.sltiu 3#5 1#5 0xFFF#12) := by decide
theorem test_decode_xori : decode 0b11111111111100001100000110010011#32 = .ok (.xori 3#5 1#5 0xFFF#12) := by decide
theorem test_decode_srli : decode 0b00000000010000001101000110010011#32 = .ok (.srli 3#5 1#5 4#5) := by decide
theorem test_decode_srai : decode 0b01000001111100001101000110010011#32 = .ok (.srai 3#5 1#5 31#5) := by decide
theorem test_decode_ori : decode 0b00001111000000001110000110010011#32 = .ok (.ori 3#5 1#5 0x0F0#12) := by decide
theorem test_decode_andi : decode 0b00001111111100001111000110010011#32 = .ok (.andi 3#5 1#5 0x0FF#12) := by decide
theorem test_decode_lb : decode 0b00000000000000001000000110000011#32 = .ok (.lb 3#5 1#5 0#12) := by decide
theorem test_decode_lh : decode 0b00000000001000001001000110000011#32 = .ok (.lh 3#5 1#5 2#12) := by decide
theorem test_decode_lw : decode 0b11111111110000001010000110000011#32 = .ok (.lw 3#5 1#5 0xFFC#12) := by decide
theorem test_decode_lbu : decode 0b00000000001100001100000110000011#32 = .ok (.lbu 3#5 1#5 3#12) := by decide
theorem test_decode_lhu : decode 0b00000000001000001101000110000011#32 = .ok (.lhu 3#5 1#5 2#12) := by decide
theorem test_decode_ecall : decode 0b00000000000000000000000001110011#32 = .ok (.ecall) := by decide
theorem test_decode_ebreak : decode 0b00000000000100000000000001110011#32 = .ok (.ebreak) := by decide
theorem test_decode_sb : decode 0b11111110001000001000111110100011#32 = .ok (.sb 1#5 2#5 0xFFF#12) := by decide
theorem test_decode_sh : decode 0b00000000001000001001000100100011#32 = .ok (.sh 1#5 2#5 2#12) := by decide
theorem test_decode_sw : decode 0b11111110001000001010111000100011#32 = .ok (.sw 1#5 2#5 0xFFC#12) := by decide
theorem test_decode_beq : decode 0b00000000001000001000010001100011#32 = .ok (.beq 1#5 2#5 8#13) := by decide
theorem test_decode_bne : decode 0b11111110001000001001110011100011#32 = .ok (.bne 1#5 2#5 0x1FF8#13) := by decide
theorem test_decode_blt : decode 0b00000000001000001100100001100011#32 = .ok (.blt 1#5 2#5 16#13) := by decide
theorem test_decode_bge : decode 0b11111110001000001101111011100011#32 = .ok (.bge 1#5 2#5 0x1FFC#13) := by decide
theorem test_decode_bltu : decode 0b01111110001000001110111111100011#32 = .ok (.bltu 1#5 2#5 4094#13) := by decide
theorem test_decode_bgeu : decode 0b10000000001000001111000001100011#32 = .ok (.bgeu 1#5 2#5 0x1000#13) := by decide
theorem test_decode_jal : decode 0b11111111110111111111000001101111#32 = .ok (.jal 0#5 0x1FFFFC#21) := by decide
theorem test_decode_jalr : decode 0b00000000100000101000001011100111#32 = .ok (.jalr 5#5 5#5 8#12) := by decide
theorem test_decode_lui : decode 0b00010010001101000101000110110111#32 = .ok (.lui 3#5 0x12345#20) := by decide
theorem test_decode_auipc : decode 0b00000000000000000001000110010111#32 = .ok (.auipc 3#5 1#20) := by decide

/-! ## Illegal words, one of each clause of R86 -/

theorem test_illegal_zero : decode 0x00000000#32 = .error .opcode := by decide
theorem test_illegal_fence : decode 0x0000000F#32 = .error .opcode := by decide
theorem test_illegal_mulh : decode 0x022091B3#32 = .error .rType := by decide
theorem test_illegal_slli : decode 0x40409193#32 = .error .shiftImm := by decide
theorem test_illegal_srli : decode 0x0240D193#32 = .error .shiftImm := by decide
theorem test_illegal_load : decode 0x0000B183#32 = .error .load := by decide
theorem test_illegal_store : decode 0x0020B023#32 = .error .store := by decide
theorem test_illegal_branch : decode 0x0020A463#32 = .error .branch := by decide
theorem test_illegal_jalr : decode 0x000091E7#32 = .error .jalr := by decide
theorem test_illegal_csr : decode 0x300010F3#32 = .error .system := by decide
theorem test_illegal_tooShort : decodeBytes [0x13#8, 0x00#8, 0x00#8] = .error .tooShort := by decide

/-- The bytes of an instruction stand lowest first (R46). -/
theorem test_decodeBytes_little_endian :
    decodeBytes [0xB7#8, 0x51#8, 0x34#8, 0x12#8, 0xFF#8] = .ok (.lui 3#5 0x12345#20, [0xFF#8]) := by decide
theorem test_decodeTableWord : decodeTableWord 32 0x402081B3 = some (.sub 3#5 1#5 2#5) := by decide

/-! ## Single steps -/

/-- `State.reset` with `x1 = a`, `x2 = b` and the pc at `p`. -/
def at3 (a b p : Word) : State := setPc (writeReg (writeReg State.reset 1#5 a) 2#5 b) p

/-- The same at pc 0. -/
def with2 (a b : Word) : State := at3 a b 0#32

/-- The same with the bytes `78 56 34 92` from `0x00010000`, at `x1`. -/
def withBytes : State :=
  { with2 0x00010000#32 0xDEADBEEF#32 with
    mem := [(0x10000, 0x78#8), (0x10001, 0x56#8), (0x10002, 0x34#8), (0x10003, 0x92#8)] }

/-- The same with the conservative setting of one parameter each. -/
def underFault (a b : Word) : State :=
  { with2 a b with params := { State.reset.params with overflowPolicy := .fault } }
def underZero (a : Word) : State :=
  { with2 a 0#32 with params := { State.reset.params with sltiuImmExt := .zero } }

/-- The outcome is a next state with this value in `x[r]` and this pc. -/
def gives (o : Out) (r : RegIdx) (v p : Word) : Bool :=
  match o with
  | .next t => decide (readReg t r = v) && decide (t.pc = p)
  | _ => false

/-- The outcome is a next state with these bytes from `a` up, at pc 4. -/
def holds (o : Out) (a : Nat) (bs : List (Option Byte)) : Bool :=
  match o with
  | .next t => decide ((List.range bs.length).map (fun k => readByte t (a + k)) = bs) && decide (t.pc = 4#32)
  | _ => false

/-- The outcome is this fault. -/
def stops (o : Out) (f : Fault) : Bool :=
  match o with
  | .fault g => decide (g = f)
  | _ => false

/-- The outcome is this refusal. -/
def refuses (o : Out) (r : Refusal) : Bool :=
  match o with
  | .refused q => decide (q = r)
  | _ => false

theorem test_add : gives (exec (.add 3#5 1#5 2#5) (with2 0x7FFFFFFF#32 0x00000001#32)) 3#5 0x80000000#32 4#32 = true := by decide
theorem test_add_old_source : gives (exec (.add 1#5 1#5 2#5) (with2 5#32 7#32)) 1#5 12#32 4#32 = true := by decide
theorem test_mul : gives (exec (.mul 3#5 1#5 2#5) (with2 0x00000007#32 0xFFFFFFFD#32)) 3#5 0xFFFFFFEB#32 4#32 = true := by decide
theorem test_mul_2 : gives (exec (.mul 3#5 1#5 2#5) (with2 0x12345678#32 0x9ABCDEF0#32)) 3#5 0x242D2080#32 4#32 = true := by decide
theorem test_addu : gives (exec (.addu 3#5 1#5 2#5) (with2 0xFFFFFFFF#32 0x00000001#32)) 3#5 0x00000000#32 4#32 = true := by decide
theorem test_sub : gives (exec (.sub 3#5 1#5 2#5) (with2 0x00000005#32 0x00000007#32)) 3#5 0xFFFFFFFE#32 4#32 = true := by decide
theorem test_subu : gives (exec (.subu 3#5 1#5 2#5) (with2 0x00000000#32 0x00000001#32)) 3#5 0xFFFFFFFF#32 4#32 = true := by decide
theorem test_sll : gives (exec (.sll 3#5 1#5 2#5) (with2 0xFFFFFFFF#32 0x00000004#32)) 3#5 0xFFFFFFF0#32 4#32 = true := by decide
theorem test_sll_2 : gives (exec (.sll 3#5 1#5 2#5) (with2 0x00000001#32 0x00000020#32)) 3#5 0x00000001#32 4#32 = true := by decide
theorem test_slt : gives (exec (.slt 3#5 1#5 2#5) (with2 0xFFFFFFFF#32 0x00000001#32)) 3#5 0x00000001#32 4#32 = true := by decide
theorem test_slt_2 : gives (exec (.slt 3#5 1#5 2#5) (with2 0x00000001#32 0xFFFFFFFF#32)) 3#5 0x00000000#32 4#32 = true := by decide
theorem test_sltu : gives (exec (.sltu 3#5 1#5 2#5) (with2 0x00000001#32 0xFFFFFFFF#32)) 3#5 0x00000001#32 4#32 = true := by decide
theorem test_sltu_2 : gives (exec (.sltu 3#5 1#5 2#5) (with2 0xFFFFFFFF#32 0x00000001#32)) 3#5 0x00000000#32 4#32 = true := by decide
theorem test_xor : gives (exec (.xor 3#5 1#5 2#5) (with2 0xFF00FF00#32 0x0FF00FF0#32)) 3#5 0xF0F0F0F0#32 4#32 = true := by decide
theorem test_div : gives (exec (.div 3#5 1#5 2#5) (with2 0x00000007#32 0xFFFFFFFD#32)) 3#5 0xFFFFFFFE#32 4#32 = true := by decide
theorem test_div_2 : gives (exec (.div 3#5 1#5 2#5) (with2 0xFFFFFFF9#32 0x00000003#32)) 3#5 0xFFFFFFFE#32 4#32 = true := by decide
theorem test_srl : gives (exec (.srl 3#5 1#5 2#5) (with2 0xFFFFFFFF#32 0x00000004#32)) 3#5 0x0FFFFFFF#32 4#32 = true := by decide
theorem test_srl_2 : gives (exec (.srl 3#5 1#5 2#5) (with2 0x80000000#32 0x0000001F#32)) 3#5 0x00000001#32 4#32 = true := by decide
theorem test_sra : gives (exec (.sra 3#5 1#5 2#5) (with2 0xF0000000#32 0x00000024#32)) 3#5 0xFF000000#32 4#32 = true := by decide
theorem test_sra_2 : gives (exec (.sra 3#5 1#5 2#5) (with2 0x7FFFFFFF#32 0x00000004#32)) 3#5 0x07FFFFFF#32 4#32 = true := by decide
theorem test_or : gives (exec (.or 3#5 1#5 2#5) (with2 0xFF00FF00#32 0x0FF00FF0#32)) 3#5 0xFFF0FFF0#32 4#32 = true := by decide
theorem test_rem : gives (exec (.rem 3#5 1#5 2#5) (with2 0xFFFFFFF9#32 0x00000003#32)) 3#5 0xFFFFFFFF#32 4#32 = true := by decide
theorem test_rem_2 : gives (exec (.rem 3#5 1#5 2#5) (with2 0x00000007#32 0xFFFFFFFD#32)) 3#5 0x00000001#32 4#32 = true := by decide
theorem test_and : gives (exec (.and 3#5 1#5 2#5) (with2 0xFF00FF00#32 0x0FF00FF0#32)) 3#5 0x0F000F00#32 4#32 = true := by decide
theorem test_addi : gives (exec (.addi 3#5 1#5 0xFFF#12) (with2 0x00000005#32 0#32)) 3#5 0x00000004#32 4#32 = true := by decide
theorem test_slli : gives (exec (.slli 3#5 1#5 4#5) (with2 0xFFFFFFFF#32 0#32)) 3#5 0xFFFFFFF0#32 4#32 = true := by decide
theorem test_slti : gives (exec (.slti 3#5 1#5 0xFFF#12) (with2 0x00000000#32 0#32)) 3#5 0x00000000#32 4#32 = true := by decide
theorem test_slti_2 : gives (exec (.slti 3#5 1#5 0x800#12) (with2 0x80000000#32 0#32)) 3#5 0x00000001#32 4#32 = true := by decide
theorem test_sltiu : gives (exec (.sltiu 3#5 1#5 0xFFF#12) (with2 0x00000000#32 0#32)) 3#5 0x00000001#32 4#32 = true := by decide
theorem test_sltiu_2 : gives (exec (.sltiu 3#5 1#5 0x800#12) (with2 0xFFFFF800#32 0#32)) 3#5 0x00000000#32 4#32 = true := by decide
theorem test_xori : gives (exec (.xori 3#5 1#5 0xFFF#12) (with2 0x12345678#32 0#32)) 3#5 0xEDCBA987#32 4#32 = true := by decide
theorem test_srli : gives (exec (.srli 3#5 1#5 4#5) (with2 0xFFFFFFFF#32 0#32)) 3#5 0x0FFFFFFF#32 4#32 = true := by decide
theorem test_srai : gives (exec (.srai 3#5 1#5 4#5) (with2 0xFFFFFFFF#32 0#32)) 3#5 0xFFFFFFFF#32 4#32 = true := by decide
theorem test_ori : gives (exec (.ori 3#5 1#5 0x0F0#12) (with2 0x12345678#32 0#32)) 3#5 0x123456F8#32 4#32 = true := by decide
theorem test_andi : gives (exec (.andi 3#5 1#5 0x0FF#12) (with2 0x12345678#32 0#32)) 3#5 0x00000078#32 4#32 = true := by decide
theorem test_lb : gives (exec (.lb 3#5 1#5 3#12) withBytes) 3#5 0xFFFFFF92#32 4#32 = true := by decide
theorem test_lh : gives (exec (.lh 3#5 1#5 2#12) withBytes) 3#5 0xFFFF9234#32 4#32 = true := by decide
theorem test_lw : gives (exec (.lw 3#5 1#5 0#12) withBytes) 3#5 0x92345678#32 4#32 = true := by decide
theorem test_lbu : gives (exec (.lbu 3#5 1#5 3#12) withBytes) 3#5 0x00000092#32 4#32 = true := by decide
theorem test_lhu : gives (exec (.lhu 3#5 1#5 2#12) withBytes) 3#5 0x00009234#32 4#32 = true := by decide
theorem test_lh_misaligned :
    stops (exec (.lh 3#5 1#5 1#12) withBytes) (.loadAddressMisaligned 0x00010001#32) = true := by decide
theorem test_lw_no_value :
    stops (exec (.lw 3#5 1#5 4#12) withBytes) (.uninitialisedRead 0x00010004#32) = true := by decide
theorem test_ecall : stops (exec .ecall (at3 0#32 0#32 0x14#32)) (.environmentCall 0x14#32) = true := by decide
theorem test_ebreak : refuses (exec .ebreak (at3 0#32 0#32 8#32)) (.breakpoint 8#32) = true := by decide
theorem test_sb : holds (exec (.sb 1#5 2#5 1#12) withBytes) 0x10000 [some 0x78#8, some 0xEF#8, some 0x34#8] = true := by
  decide
theorem test_sh :
    holds (exec (.sh 1#5 2#5 2#12) withBytes) 0x10001 [some 0x56#8, some 0xEF#8, some 0xBE#8, none] = true := by decide
theorem test_sw : holds (exec (.sw 1#5 2#5 4#12) withBytes) 0x10003
    [some 0x92#8, some 0xEF#8, some 0xBE#8, some 0xAD#8, some 0xDE#8, none] = true := by decide
theorem test_sh_misaligned :
    stops (exec (.sh 1#5 2#5 1#12) withBytes) (.storeAddressMisaligned 0x00010001#32) = true := by decide
theorem test_beq : gives (exec (.beq 1#5 2#5 8#13) (at3 0x00000005#32 0x00000005#32 0x00000100#32)) 2#5 0x00000005#32 0x00000108#32 = true := by decide
theorem test_beq_not_taken : gives (exec (.beq 1#5 2#5 8#13) (at3 0x00000005#32 0x00000006#32 0x00000100#32)) 2#5 0x00000006#32 0x00000104#32 = true := by decide
theorem test_bne : gives (exec (.bne 1#5 2#5 0x1FF8#13) (at3 0x00000001#32 0x00000000#32 0x00000110#32)) 2#5 0x00000000#32 0x00000108#32 = true := by decide
theorem test_bne_not_taken : gives (exec (.bne 1#5 2#5 0x1FF8#13) (at3 0x00000001#32 0x00000001#32 0x00000110#32)) 2#5 0x00000001#32 0x00000114#32 = true := by decide
theorem test_blt : gives (exec (.blt 1#5 2#5 16#13) (at3 0xFFFFFFFF#32 0x00000001#32 0x00000100#32)) 2#5 0x00000001#32 0x00000110#32 = true := by decide
theorem test_blt_not_taken : gives (exec (.blt 1#5 2#5 16#13) (at3 0x00000001#32 0xFFFFFFFF#32 0x00000100#32)) 2#5 0xFFFFFFFF#32 0x00000104#32 = true := by decide
theorem test_bge : gives (exec (.bge 1#5 2#5 0x1FFC#13) (at3 0x00000005#32 0x00000005#32 0x00000100#32)) 2#5 0x00000005#32 0x000000FC#32 = true := by decide
theorem test_bge_not_taken : gives (exec (.bge 1#5 2#5 0x1FFC#13) (at3 0xFFFFFFFF#32 0x00000001#32 0x00000100#32)) 2#5 0x00000001#32 0x00000104#32 = true := by decide
theorem test_bltu : gives (exec (.bltu 1#5 2#5 8#13) (at3 0x00000001#32 0xFFFFFFFF#32 0x00000100#32)) 2#5 0xFFFFFFFF#32 0x00000108#32 = true := by decide
theorem test_bltu_not_taken : gives (exec (.bltu 1#5 2#5 8#13) (at3 0xFFFFFFFF#32 0x00000001#32 0x00000410#32)) 2#5 0x00000001#32 0x00000414#32 = true := by decide
theorem test_bgeu : gives (exec (.bgeu 1#5 2#5 0x1000#13) (at3 0xFFFFFFFF#32 0x00000001#32 0x00002000#32)) 2#5 0x00000001#32 0x00001000#32 = true := by decide
theorem test_bgeu_not_taken : gives (exec (.bgeu 1#5 2#5 0x1000#13) (at3 0x00000000#32 0x00000001#32 0x00002000#32)) 2#5 0x00000001#32 0x00002004#32 = true := by decide
theorem test_jal : gives (exec (.jal 1#5 12#21) (at3 0#32 0#32 8#32)) 1#5 0xC#32 0x14#32 = true := by decide
theorem test_jal_misaligned :
    stops (exec (.jal 1#5 2#21) (at3 0#32 0#32 8#32)) (.instructionAddressMisaligned 0xA#32) = true := by decide
theorem test_jalr_old_base : gives (exec (.jalr 1#5 1#5 8#12) (at3 0x100#32 0#32 0x20#32)) 1#5 0x24#32 0x108#32 = true := by
  decide
theorem test_jalr_bit0 :
    stops (exec (.jalr 1#5 1#5 1#12) (at3 0x100#32 0#32 0x20#32)) (.instructionAddressMisaligned 0x101#32) = true := by
  decide
theorem test_lui : gives (exec (.lui 3#5 0x12345#20) State.reset) 3#5 0x12345000#32 4#32 = true := by decide
theorem test_auipc : gives (exec (.auipc 3#5 1#20) (at3 0#32 0#32 0x42C#32)) 3#5 0x142C#32 0x430#32 = true := by decide

/-! ## Steps -/

/-- The reset state with this word at the pc. -/
def placed (w : Nat) : State := State.reset.withFetchWord 32 w

theorem test_step_addi : gives (step (placed 0x00500093)) 1#5 5#32 4#32 = true := by decide
theorem test_step_x0 : gives (step (placed 0x00500013)) 0#5 0#32 4#32 = true := by decide
theorem test_step_illegal : stops (step (placed 0)) (.illegalInstruction 0#32 0#32) = true := by decide
theorem test_step_fetchFault : stops (step State.reset) (.fetchFault 0#32) = true := by decide
/-- A load of the program text (R42). -/
theorem test_step_load_text : stops (step (placed 0x00002083)) (.loadAccessFault 0#32) = true := by decide

/-! ## Witnesses: what meets a statement's hypotheses -/

theorem witness_ResetTakesTheParameters : (30 : Fin 31).val + 1 = (31#5 : RegIdx).toNat ∧
    (0 : Fin 31).val + 1 = (1#5 : RegIdx).toNat := by decide

theorem placed_inv (w : Nat) (h : progWf (placed w).params.prog = true) : Inv (placed w) :=
  ⟨rfl, rfl, fun _ ha => absurd rfl ha, h⟩

theorem witness_StepKeepsTheInvariant : ∃ t, Inv (placed 0x00102423) ∧ step (placed 0x00102423) = .next t :=
  ⟨_, placed_inv _ (by decide), rfl⟩

theorem witness_StepLeavesThePcAligned : ∃ t, step (placed 0x0080006F) = .next t ∧ t.pc = 8#32 := ⟨_, rfl, rfl⟩

theorem witness_RunKeepsInvariantAndText :
    ∃ t, Inv (placed 0x00500093) ∧ Reaches (placed 0x00500093) t ∧ t.pc = 4#32 :=
  ⟨_, placed_inv _ (by decide), .step (.refl _) rfl, rfl⟩

theorem witness_InstructionsChangeOnlyWhatTheyName :
    (∃ t, exec (.add 3#5 1#5 2#5) State.reset = .next t) ∧ destOf (.add 3#5 1#5 2#5) ≠ some 1#5 ∧
      ∀ rs1 rs2 imm n, ¬ StoreOf (.add 3#5 1#5 2#5) rs1 rs2 imm n :=
  ⟨⟨_, rfl⟩, by decide, fun _ _ _ _ => by simp [StoreOf]⟩

theorem witness_InstructionsGoWhereTheyName :
    (∃ t, exec (.beq 1#5 2#5 0x1000#13) State.reset = .next t ∧ t.pc = 0xFFFFF000#32) ∧
      (∃ t, exec (.jal 1#5 0x100000#21) State.reset = .next t ∧ t.pc = 0xFFF00000#32) ∧
      (∃ t, exec (.jalr 1#5 0#5 0x7FC#12) State.reset = .next t ∧ t.pc = 0x7FC#32) ∧
      (∃ t, exec (.lui 1#5 1#20) State.reset = .next t ∧ t.pc = 4#32) := ⟨⟨_, rfl, rfl⟩, ⟨_, rfl, rfl⟩, ⟨_, rfl, rfl⟩, ⟨_, rfl, rfl⟩⟩

theorem witness_DecodeInvertsEncode : (Instr.bgeu 1#5 2#5 0x1FFE#13).wellFormed = true ∧
    (Instr.jal 31#5 0x1FFFFE#21).wellFormed = true ∧ (Instr.add 31#5 0#5 31#5).wellFormed = true := by decide

theorem witness_EncodeInvertsDecode : decode 0x7FFFF0EF#32 = .ok (.jal 1#5 0x0FFFFE#21) ∧
    decode 0x80208023#32 = .ok (.sb 1#5 2#5 0x800#12) := by decide

theorem witness_IllegalWordsRaise : (placed 0).pc.toNat % 4 = 0 ∧
    cellsFind (placed 0).params.prog (placed 0).pc.toNat = some 0#32 ∧ IllegalWord 0#32 :=
  ⟨by decide, by decide, .inl (by decide)⟩

theorem witness_StepRunsTheDecodedInstruction :
    (placed 0x00500093).pc.toNat % 4 = 0 ∧
      cellsFind (placed 0x00500093).params.prog (placed 0x00500093).pc.toNat = some 0x00500093#32 ∧
      decode 0x00500093#32 = .ok (.addi 1#5 0#5 5#12) ∧
      (0x00#8 ++ 0x50#8 ++ 0x00#8 ++ 0x93#8 : BitVec 32) = 0x00500093#32 ∧
      decodeBytes [0x93#8, 0x00#8, 0x50#8, 0x00#8] = .ok (.addi 1#5 0#5 5#12, []) ∧
      (Instr.addi 1#5 0#5 5#12).wellFormed = true ∧ encode (.addi 1#5 0#5 5#12) = 0x00500093#32 := by decide

theorem witness_FetchStopsOutsideTheText : (at3 0#32 0#32 1#32).pc.toNat % 4 ≠ 0 ∧
    (at3 0#32 0#32 3#32).pc.toNat % 4 ≠ 0 ∧ State.reset.pc.toNat % 4 = 0 ∧
    cellsFind State.reset.params.prog State.reset.pc.toNat = none := by decide

theorem witness_AddSubWrapByDefault : (with2 0x7FFFFFFF#32 1#32).params.overflowPolicy = .wrap := by decide

/-- The policy, and sums and differences at both ends of each range: the last that fits and the first that does not. -/
theorem witness_OverflowTrapsOnlyUnderFaultPolicy :
    (underFault 0x7FFFFFFF#32 0#32).params.overflowPolicy = .fault ∧
      gives (exec (.add 3#5 1#5 2#5) (underFault 0x7FFFFFFE#32 1#32)) 3#5 0x7FFFFFFF#32 4#32 = true ∧
      stops (exec (.add 3#5 1#5 2#5) (underFault 0x7FFFFFFF#32 1#32)) (.arithmeticOverflow 0#32) = true ∧
      gives (exec (.sub 3#5 1#5 2#5) (underFault 0x80000001#32 1#32)) 3#5 0x80000000#32 4#32 = true ∧
      stops (exec (.sub 3#5 1#5 2#5) (underFault 0x80000000#32 1#32)) (.arithmeticOverflow 0#32) = true ∧
      stops (exec (.addi 3#5 1#5 0xFFF#12) (underFault 0x80000000#32 0#32)) (.arithmeticOverflow 0#32) = true := by
  decide

theorem witness_ShiftsByRegisterTakeFiveBits : 31 = (readReg (with2 0#32 0xFFFFFFFF#32) 2#5).toNat % 32 ∧
    0 = (readReg (with2 0#32 32#32) 2#5).toNat % 32 := by decide

theorem witness_CompareWithImmediate : (with2 0#32 0#32).params.sltiuImmExt = .sign ∧
    (underZero 0x1000#32).params.sltiuImmExt = .zero ∧
    gives (exec (.sltiu 3#5 1#5 0xFFF#12) (underZero 0x1000#32)) 3#5 0#32 4#32 = true := by decide

/-- The three cases of R118: a zero divisor, the overflowing division, and the rest. -/
theorem witness_DivRemAtEverySign :
    readReg (with2 7#32 0#32) 2#5 = 0#32 ∧
      (readReg (with2 0x80000000#32 0xFFFFFFFF#32) 2#5 ≠ 0#32 ∧
        (readReg (with2 0x80000000#32 0xFFFFFFFF#32) 1#5).toInt = -2 ^ 31 ∧
        (readReg (with2 0x80000000#32 0xFFFFFFFF#32) 2#5).toInt = -1) ∧
      (readReg (with2 0x80000000#32 1#32) 2#5 ≠ 0#32 ∧ (readReg (with2 0x80000000#32 1#32) 2#5).toInt ≠ -1) := by
  decide

/-- The state of the load witnesses: values in the four bytes at the top of the address space. -/
def atTop : State :=
  { with2 0xFFFFFFFC#32 0x12345678#32 with
    mem := [(0xFFFFFFFC, 1#8), (0xFFFFFFFD, 2#8), (0xFFFFFFFE, 3#8), (0xFFFFFFFF, 4#8)] }

theorem witness_LoadsReadLittleEndian : (0xFFFFFFFC : Nat) = (readReg atTop 1#5 + sext12 0#12).toNat ∧
    mapped atTop 0xFFFFFFFC = true ∧ readByte atTop 0xFFFFFFFC = some 1#8 ∧ 0xFFFFFFFC % 2 = 0 ∧
    mapped atTop (0xFFFFFFFC + 1) = true ∧ readByte atTop (0xFFFFFFFC + 1) = some 2#8 ∧ 0xFFFFFFFC % 4 = 0 ∧
    mapped atTop (0xFFFFFFFC + 2) = true ∧ mapped atTop (0xFFFFFFFC + 3) = true ∧
    readByte atTop (0xFFFFFFFC + 2) = some 3#8 ∧ readByte atTop (0xFFFFFFFC + 3) = some 4#8 := by decide

/-- Memory ends at `0x10004`: the last word is mapped and holds no value, the next is not mapped. -/
def small : State :=
  { with2 0x00010000#32 0#32 with params := { State.reset.params with memMap := [⟨0x10000, 4⟩] } }

theorem witness_LoadsStopInOrder : LoadOf (.lw 3#5 1#5 1#12) 3#5 1#5 1#12 4 ∧
    (readReg small 1#5 + sext12 1#12).toNat % 4 ≠ 0 ∧
    ((readReg small 1#5 + sext12 4#12).toNat % 4 = 0 ∧
      mapped small ((readReg small 1#5 + sext12 4#12).toNat + 0) = false) ∧
    ((readReg small 1#5 + sext12 0#12).toNat % 4 = 0 ∧
      (∀ k < 4, mapped small ((readReg small 1#5 + sext12 0#12).toNat + k) = true) ∧
      readByte small ((readReg small 1#5 + sext12 0#12).toNat + 3) = none) :=
  ⟨.inr (.inr (.inl ⟨rfl, rfl⟩)), by decide, by decide, by decide⟩

theorem witness_StoresWriteLittleEndian : StoreOf (.sw 1#5 2#5 0#12) 1#5 2#5 0#12 4 ∧
    (0xFFFFFFFC : Nat) = (readReg atTop 1#5 + sext12 0#12).toNat ∧ 0xFFFFFFFC % 4 = 0 ∧
    ∀ k < 4, mapped atTop (0xFFFFFFFC + k) = true :=
  ⟨.inr (.inr ⟨rfl, rfl⟩), by decide, by decide, by decide⟩

theorem witness_StoresStopInOrder : StoreOf (.sw 1#5 2#5 1#12) 1#5 2#5 1#12 4 ∧
    (readReg small 1#5 + sext12 1#12).toNat % 4 ≠ 0 ∧ StoreOf (.sw 1#5 2#5 4#12) 1#5 2#5 4#12 4 ∧
    (readReg small 1#5 + sext12 4#12).toNat % 4 = 0 ∧
    mapped small ((readReg small 1#5 + sext12 4#12).toNat + 0) = false :=
  ⟨.inr (.inr ⟨rfl, rfl⟩), by decide, .inr (.inr ⟨rfl, rfl⟩), by decide, by decide⟩

theorem witness_MixedWidthAccesses : ∃ t u, memWrite State.reset 0xFFFFFFFC#32 4 0x12345678#32 = .ok t ∧
    memWrite t (0xFFFFFFFC#32 + 1#32) 1 0xAB#8 = .ok u := ⟨_, _, rfl, rfl⟩

theorem witness_LoadSeesTheLatestStore : (∃ t, exec (.sw 1#5 2#5 0#12) atTop = .next t) ∧
    (∃ t, exec (.sh 1#5 2#5 2#12) atTop = .next t) ∧ (∃ t, exec (.sb 1#5 2#5 3#12) atTop = .next t) :=
  ⟨⟨_, rfl⟩, ⟨_, rfl⟩, ⟨_, rfl⟩⟩

/-- The first byte of the text by a word access, its last byte by a byte access, and a store that completes beside it. -/
theorem witness_ProgramTextIsOutOfReach :
    (0, 0x00002083#32) ∈ (placed 0x00002083).params.prog ∧
      (readReg (placed 0x00002083) 0#5 + sext12 0#12).toNat = 0 ∧ LoadOf (.lw 1#5 0#5 0#12) 1#5 0#5 0#12 4 ∧
      (readReg (placed 0x00002083) 0#5 + sext12 3#12).toNat = 3 ∧ StoreOf (.sb 0#5 1#5 3#12) 0#5 1#5 3#12 1 ∧
      ∃ t, exec (.sb 0#5 1#5 4#12) (placed 0x00002083) = .next t :=
  ⟨by decide, by decide, .inr (.inr (.inl ⟨rfl, rfl⟩)), by decide, .inl ⟨rfl, rfl⟩, ⟨_, rfl⟩⟩

/-- Taken to an aligned target, taken to a misaligned one, and not taken. -/
theorem witness_BranchesGoWhereTheConditionSays :
    (BranchOf State.reset (.beq 1#5 2#5 0x1000#13) 0x1000#13 True ∧ (plus State.reset.pc (0x1000#13).toInt).toNat % 4 = 0) ∧
      (BranchOf State.reset (.bgeu 1#5 2#5 0xFFE#13) 0xFFE#13 True ∧ (plus State.reset.pc (0xFFE#13).toInt).toNat % 4 ≠ 0) ∧
      BranchOf State.reset (.blt 1#5 2#5 2#13) 2#13 False := by
  refine ⟨⟨⟨1#5, 2#5, .inl ⟨rfl, by decide⟩⟩, by decide⟩,
    ⟨⟨1#5, 2#5, .inr (.inr (.inr (.inr (.inr ⟨rfl, by decide⟩))))⟩, by decide⟩,
    ⟨1#5, 2#5, .inr (.inr (.inl ⟨rfl, by decide⟩))⟩⟩

theorem witness_JalLinksAndJumps : (plus State.reset.pc (0x0FFFFC#21).toInt).toNat % 4 = 0 ∧
    (plus State.reset.pc (0x0FFFFE#21).toInt).toNat % 4 ≠ 0 := by decide

theorem witness_JalrLinksAndJumps : (plus (readReg State.reset 1#5) (0x800#12).toInt).toNat % 4 = 0 ∧
    (plus (readReg State.reset 1#5) (0x7FF#12).toInt).toNat % 4 ≠ 0 := by decide

theorem witness_EcallAloneEndsARunProperly : treatment (exec .ecall State.reset) = .final := by decide

theorem witness_EbreakAloneIsRefused : exec .ebreak State.reset = .refused (.breakpoint 0#32) := rfl

theorem witness_ProperEndStandsAtAnEcall : EndsProperly (placed 0x00000073) (placed 0x00000073) := ⟨.refl _, by decide⟩


end Sys2Proof.Tests
end

/-! PROOFS. The statements on the register file, the invariant, the frame and the step (10_state.md). What an instruction
that completes can do is said once for all 44 (`exec_completes`): it writes its `rd` and goes where it names, it only goes
there, or it stores. The invariant, the frame and the pc of every step follow from that. -/

namespace Sys2Proof.Claims

open Machine

/-! ## Sums with a signed offset (R26, R49) -/

/-- A sum with a signed offset is the 32-bit sum with the offset's word. -/
theorem plus_eq_add_ofInt (a : Word) (off : Int) : plus a off = a + BitVec.ofInt 32 off := by
  rw [plus, BitVec.ofInt_add, BitVec.ofInt_toInt]

theorem plus_four (a : Word) : plus a 4 = a + 4#32 := plus_eq_add_ofInt a 4

theorem plus_sext12 (a : Word) (imm : BitVec 12) : plus a imm.toInt = a + sext12 imm := plus_eq_add_ofInt a imm.toInt

theorem plus_immB (a : Word) (off : BitVec 13) : plus a off.toInt = a + immB off := plus_eq_add_ofInt a off.toInt

theorem plus_immJ (a : Word) (off : BitVec 21) : plus a off.toInt = a + immJ off := plus_eq_add_ofInt a off.toInt

/-! ## What an instruction that completes can do -/

/-- An address that is a multiple of 4 whenever the pc is. -/
def KeepsAligned (s : State) (p : Word) : Prop := aligned4 s.pc = true → aligned4 p = true

theorem keepsAligned_pc_add_four (s : State) : KeepsAligned s (s.pc + 4#32) :=
  fun h => (aligned4_add_four s.pc).trans h

/-- The next states `i` can answer from `s`: at an address `p` where `i` may go, with `rd` written (`writes`) or with
nothing else changed (`moves`), or after one `MemWrite` at `pc + 4` (`stores`). -/
inductive Completes (i : Instr) (s : State) : State → Prop where
  | writes {rd : RegIdx} {p : Word} (v : Word) (hd : destOf i = some rd) (hp : GoesTo i s p) (ha : KeepsAligned s p) :
      Completes i s (setPc (writeReg s rd v) p)
  | moves {p : Word} (hp : GoesTo i s p) (ha : KeepsAligned s p) : Completes i s (setPc s p)
  | stores {rs1 rs2 : RegIdx} {imm : BitVec 12} {n : Nat} {u : State} (hi : StoreOf i rs1 rs2 imm n)
      (hu : memWrite s (readReg s rs1 + sext12 imm) n ((readReg s rs2).setWidth (8 * n)) = .ok u) :
      Completes i s (advance u)

section Shapes

variable {i : Instr} {s t : State} {rd rs1 rs2 : RegIdx} {v : Word}

/-- A write of `rd` that moves to the next instruction. -/
theorem completes_advance_writeReg (v : Word) (hd : destOf i = some rd) (hp : GoesTo i s (plus s.pc 4)) :
    Completes i s (advance (writeReg s rd v)) := by
  have key : Completes i s (setPc (writeReg s rd v) (s.pc + 4#32)) :=
    .writes v hd (plus_four s.pc ▸ hp) (keepsAligned_pc_add_four s)
  rwa [advance, writeReg_pc]

theorem completes_of_writeBack (hd : destOf i = some rd) (hp : GoesTo i s (plus s.pc 4))
    (h : writeBack s rd v = .next t) : Completes i s t :=
  writeBack_next h ▸ completes_advance_writeReg v hd hp

theorem completes_of_writeBackChecked {o : Bool} (hd : destOf i = some rd) (hp : GoesTo i s (plus s.pc 4))
    (h : writeBackChecked s rd o v = .next t) : Completes i s t :=
  writeBackChecked_next h ▸ completes_advance_writeReg v hd hp

theorem completes_of_load {off : Word} {n : Nat} {widen : BitVec (8 * n) → Word} (hd : destOf i = some rd)
    (hp : GoesTo i s (plus s.pc 4)) (h : load s rd rs1 off n widen = .next t) : Completes i s t := by
  obtain ⟨v, -, rfl⟩ := load_next h
  exact completes_advance_writeReg (widen v) hd hp

theorem completes_of_store {imm : BitVec 12} {n : Nat} (hi : StoreOf i rs1 rs2 imm n)
    (h : store s rs1 rs2 (sext12 imm) n = .next t) : Completes i s t := by
  obtain ⟨u, hu, rfl⟩ := store_next h
  exact .stores hi hu

theorem completes_of_branch {taken : Bool} {off : BitVec 13}
    (hp : ∀ p, p = plus s.pc 4 ∨ p = plus s.pc off.toInt → GoesTo i s p)
    (h : branch s taken (immB off) = .next t) : Completes i s t := by
  rcases branch_next h with ⟨-, rfl⟩ | ⟨-, hal, rfl⟩
  · exact .moves (hp _ (.inl (plus_four s.pc).symm)) (keepsAligned_pc_add_four s)
  · exact .moves (hp _ (.inr (plus_immB s.pc off).symm)) fun _ => hal

theorem completes_of_jumpAndLink {target : Word} (hd : destOf i = some rd) (hp : GoesTo i s target)
    (h : jumpAndLink s rd target = .next t) : Completes i s t := by
  obtain ⟨hal, rfl⟩ := jumpAndLink_next h
  exact .writes _ hd hp fun _ => hal

end Shapes

/-- Every instruction that completes does one of the three. -/
theorem exec_completes {i : Instr} {s t : State} (h : exec i s = .next t) : Completes i s t := by
  cases i with
  | add | sub | addi => exact completes_of_writeBackChecked rfl rfl h
  | mul | addu | subu | sll | slt | sltu | xor | div | srl | sra | or | rem | and
  | slli | slti | sltiu | xori | srli | srai | ori | andi | lui | auipc => exact completes_of_writeBack rfl rfl h
  | lb | lh | lw | lbu | lhu => exact completes_of_load rfl rfl h
  | sb => exact completes_of_store (.inl ⟨rfl, rfl⟩) h
  | sh => exact completes_of_store (.inr (.inl ⟨rfl, rfl⟩)) h
  | sw => exact completes_of_store (.inr (.inr ⟨rfl, rfl⟩)) h
  | beq | bne | blt | bge | bltu | bgeu => exact completes_of_branch (fun _ hp => hp) h
  | jal rd off => exact completes_of_jumpAndLink rfl (plus_immJ s.pc off).symm h
  | jalr rd rs1 imm => exact completes_of_jumpAndLink rfl (plus_sext12 (readReg s rs1) imm).symm h
  | ecall | ebreak => cases h

/-! ## What every instruction that completes keeps -/

theorem storeOf_size {i : Instr} {rs1 rs2 : RegIdx} {imm : BitVec 12} {n : Nat} (h : StoreOf i rs1 rs2 imm n) :
    n = 1 ∨ n = 2 ∨ n = 4 := by
  rcases h with ⟨-, rfl⟩ | ⟨-, rfl⟩ | ⟨-, rfl⟩ <;> simp

theorem storeOf_goesTo {i : Instr} {rs1 rs2 : RegIdx} {imm : BitVec 12} {n : Nat} (h : StoreOf i rs1 rs2 imm n)
    (s : State) : GoesTo i s (plus s.pc 4) := by
  rcases h with ⟨rfl, -⟩ | ⟨rfl, -⟩ | ⟨rfl, -⟩ <;> rfl

/-- `MemWrite` changes memory alone (R45). -/
theorem memWrite_frame {s u : State} {addr : Word} {n : Nat} {v : BitVec (8 * n)} (h : memWrite s addr n v = .ok u) :
    u.regs = s.regs ∧ u.pc = s.pc ∧ u.params = s.params := by
  obtain ⟨-, -, rfl⟩ := memWrite_ok h
  exact ⟨rfl, rfl, rfl⟩

section Kept

variable {i : Instr} {s t : State}

/-- No instruction changes a parameter of the run (R20, R58). -/
theorem completes_params (h : Completes i s t) : t.params = s.params := by
  cases h with
  | writes v hd hp ha => exact writeReg_params s _ v
  | moves hp ha => rfl
  | stores hi hu =>
    obtain ⟨-, -, hparams⟩ := memWrite_frame hu
    exact hparams

/-- Only `rd` is written (R38). -/
theorem completes_readReg (h : Completes i s t) {r : RegIdx} (hr : destOf i ≠ some r) : readReg t r = readReg s r := by
  cases h with
  | writes v hd hp ha => exact readReg_writeReg_ne s v fun e => hr (e ▸ hd)
  | moves hp ha => rfl
  | stores hi hu =>
    obtain ⟨hregs, -, -⟩ := memWrite_frame hu
    exact readReg_of_regs hregs r

/-- Only a store changes memory (R31). -/
theorem completes_mem (h : Completes i s t) (hi : ∀ rs1 rs2 imm n, ¬ StoreOf i rs1 rs2 imm n) : t.mem = s.mem := by
  cases h with
  | writes v hd hp ha => exact writeReg_mem s _ v
  | moves hp ha => rfl
  | stores hst hu => exact absurd hst (hi _ _ _ _)

/-- The pc goes where the instruction names (R26). -/
theorem completes_goesTo (h : Completes i s t) : GoesTo i s t.pc := by
  cases h with
  | writes v hd hp ha => exact hp
  | moves hp ha => exact hp
  | stores hi hu =>
    obtain ⟨-, hpc, -⟩ := memWrite_frame hu
    have := storeOf_goesTo hi s
    rwa [advance_pc, hpc, ← plus_four]

/-- The pc stays a multiple of 4 (R27). -/
theorem completes_aligned (h : Completes i s t) : KeepsAligned s t.pc := by
  cases h with
  | writes v hd hp ha => exact ha
  | moves hp ha => exact ha
  | stores hi hu =>
    obtain ⟨-, hpc, -⟩ := memWrite_frame hu
    rw [advance_pc, hpc]
    exact keepsAligned_pc_add_four s

end Kept

/-! ## Memory and the invariant -/

/-- Whether an address is mapped depends on the parameters alone (R41, R42). -/
theorem mapped_of_params {s t : State} (h : t.params = s.params) (a : Nat) : mapped t a = mapped s a := by
  simp [mapped, h]

/-- The part of the invariant that is about data memory (R31, R41). -/
def MemInv (s : State) : Prop := Memory.wf s.mem = true ∧ ∀ a, readByte s a ≠ none → mapped s a = true

theorem inv_iff (s : State) : Inv s ↔ aligned4 s.pc = true ∧ MemInv s ∧ progWf s.params.prog = true := by
  simp only [Inv, MemInv, and_assoc]

theorem memInv_of_mem_params {s t : State} (hs : MemInv s) (hm : t.mem = s.mem) (hp : t.params = s.params) :
    MemInv t := by
  obtain ⟨hwf, hmap⟩ := hs
  refine ⟨hm ▸ hwf, fun a ha => ?_⟩
  rw [mapped_of_params hp]
  exact hmap a (readByte_of_mem hm a ▸ ha)

/-- A store that completes wrote only mapped bytes, so memory still holds values at mapped addresses alone (R41, R45). -/
theorem memWrite_memInv {s u : State} {addr : Word} {n : Nat} {v : BitVec (8 * n)} (hn : n = 1 ∨ n = 2 ∨ n = 4)
    (h : memWrite s addr n v = .ok u) (hs : MemInv s) : MemInv u := by
  obtain ⟨hwf, hmap⟩ := hs
  obtain ⟨-, -, hparams⟩ := memWrite_frame h
  obtain ⟨-, hall, -⟩ := memWrite_ok h
  refine ⟨memWrite_wf hn h hwf, fun a ha => ?_⟩
  rw [mapped_of_params hparams]
  rw [readByte_memWrite h] at ha
  split at ha
  next hin =>
    have := (allMapped_iff s addr.toNat n).mp hall (a - addr.toNat) (by omega)
    rwa [Nat.add_sub_cancel' hin.1] at this
  next => exact hmap a ha

theorem completes_memInv {i : Instr} {s t : State} (h : Completes i s t) (hs : MemInv s) : MemInv t := by
  cases h with
  | writes v hd hp ha => exact memInv_of_mem_params hs (writeReg_mem s _ v) (writeReg_params s _ v)
  | moves hp ha => exact memInv_of_mem_params hs rfl rfl
  | stores hi hu => exact memInv_of_mem_params (memWrite_memInv (storeOf_size hi) hu hs) rfl rfl

/-! ## The step -/

/-- A step that answers a next state completed the instruction at an aligned pc (R25). -/
theorem step_completes {s t : State} (h : step s = .next t) : aligned4 s.pc = true ∧ ∃ i, Completes i s t := by
  obtain ⟨hal, _, i, -, -, hex⟩ := step_next h
  exact ⟨hal, i, exec_completes hex⟩

theorem step_params {s t : State} (h : step s = .next t) : t.params = s.params := by
  obtain ⟨-, i, hi⟩ := step_completes h
  exact completes_params hi

theorem step_aligned {s t : State} (h : step s = .next t) : aligned4 t.pc = true := by
  obtain ⟨hal, i, hi⟩ := step_completes h
  exact completes_aligned hi hal

/-- At an aligned pc the step executes what the fetched word decodes to (R25). -/
theorem step_eq_exec {s : State} {w : Word} {i : Instr} (hal : s.pc.toNat % 4 = 0)
    (hw : cellsFind s.params.prog s.pc.toNat = some w) (hi : decode w = .ok i) : step s = exec i s := by
  have hf := (fetch_ok_iff s s.pc w).mpr hw
  have hpc := (aligned4_iff s.pc).mpr hal
  simp [step, hpc, hf, orRaise, hi]

/-! ## Decoding from bytes and from the encoder's word -/

/-- Four bytes decode as the word they make, the lowest address first (R46). -/
theorem decode_of_decodeBytes {b0 b1 b2 b3 : Byte} {rest : List Byte} {i : Instr}
    (h : decodeBytes (b0 :: b1 :: b2 :: b3 :: rest) = .ok (i, rest)) :
    decode (b3 ++ b2 ++ b1 ++ b0 : BitVec 32) = .ok i := by
  change decode (wordOfBytes b0 b1 b2 b3) = .ok i
  rw [decodeBytes] at h
  split at h
  next j hj => cases h; exact hj
  next => cases h

section Opcodes

variable {w : Word}

/-- The major opcode selects the family's decoder (R84). -/
theorem decode_eq_decodeR (h : opcodeOf w = 0b0110011#7) : decode w = decodeR w := by simp [decode, h]
theorem decode_eq_decodeImm (h : opcodeOf w = 0b0010011#7) : decode w = decodeImm w := by simp [decode, h]
theorem decode_eq_decodeLoad (h : opcodeOf w = 0b0000011#7) : decode w = decodeLoad w := by simp [decode, h]
theorem decode_eq_decodeStore (h : opcodeOf w = 0b0100011#7) : decode w = decodeStore w := by simp [decode, h]
theorem decode_eq_decodeBranch (h : opcodeOf w = 0b1100011#7) : decode w = decodeBranch w := by simp [decode, h]
theorem decode_eq_decodeJalr (h : opcodeOf w = 0b1100111#7) : decode w = decodeJalr w := by simp [decode, h]

end Opcodes

/-- Decoding the word of a well-formed instruction gives it back, format by format (R71 to R87). -/
theorem decode_encode {i : Instr} (h : i.wellFormed = true) : decode (encode i) = .ok i := by
  cases i with
  | add | mul | addu | sub | subu | sll | slt | sltu | xor | div | srl | sra | or | rem | and =>
    rw [encode, decode_eq_decodeR (opcodeOf_encodeR ..)]; simp [decodeR]
  | addi | slti | sltiu | xori | ori | andi =>
    rw [encode, decode_eq_decodeImm (opcodeOf_encodeI ..)]; simp [decodeImm]
  | slli | srli | srai => rw [encode, decode_eq_decodeImm (opcodeOf_encodeR ..)]; simp [decodeImm]
  | lb | lh | lw | lbu | lhu => rw [encode, decode_eq_decodeLoad (opcodeOf_encodeI ..)]; simp [decodeLoad]
  | ecall | ebreak => rfl
  | sb | sh | sw => rw [encode, decode_eq_decodeStore (opcodeOf_encodeS ..)]; simp [decodeStore]
  | beq rs1 rs2 off | bne rs1 rs2 off | blt rs1 rs2 off | bge rs1 rs2 off | bltu rs1 rs2 off | bgeu rs1 rs2 off =>
    rw [encode, decode_eq_decodeBranch (opcodeOf_encodeB ..)]; simp [decodeBranch, immBOf_encodeB _ _ _ _ off h]
  | jal rd off => simp [encode, decode, immJOf_encodeJ _ _ off h]
  | jalr => rw [encode, decode_eq_decodeJalr (opcodeOf_encodeI ..)]; simp [decodeJalr]
  | lui | auipc => simp [encode, decode]

/-! ## The statements -/

/-- Settles O5: the pc and data memory by what the executed instruction can do, the program text because no
instruction changes a parameter. -/
theorem stepKeepsTheInvariant : Obligations.StepKeepsTheInvariant := by
  intro s t hs h
  obtain ⟨-, hmem, hprog⟩ := (inv_iff s).mp hs
  obtain ⟨-, i, hi⟩ := step_completes h
  exact (inv_iff t).mpr ⟨step_aligned h, completes_memInv hi hmem, step_params h ▸ hprog⟩

/-- Settles O1. -/
theorem registerFileReadsAsWritten : Obligations.RegisterFileReadsAsWritten :=
  fun s i j v => ⟨readReg_x0 s, writeReg_x0 s v, readReg_writeReg s i j v⟩

/-- Settles O6: the step's own check of the pc stands in for the invariant. -/
theorem stepLeavesThePcAligned : Obligations.StepLeavesThePcAligned :=
  fun _ t h => (aligned4_iff t.pc).mp (step_aligned h)

/-- Settles O7, by induction on the run. -/
theorem runKeepsInvariantAndText : Obligations.RunKeepsInvariantAndText := by
  intro s t hs hr
  induction hr with
  | refl => exact ⟨hs, rfl⟩
  | step _ h ih =>
    obtain ⟨hinv, hparams⟩ := ih
    exact ⟨stepKeepsTheInvariant _ _ hinv h, (step_params h).trans hparams⟩

/-- Settles O8. -/
theorem instructionsChangeOnlyWhatTheyName : Obligations.InstructionsChangeOnlyWhatTheyName := by
  intro s t i h
  have hc := exec_completes h
  exact ⟨fun _ hr => completes_readReg hc hr, fun hi a => readByte_of_mem (completes_mem hc hi) a, completes_params hc⟩

/-- Settles O9. -/
theorem instructionsGoWhereTheyName : Obligations.InstructionsGoWhereTheyName :=
  fun _ _ _ h => completes_goesTo (exec_completes h)

/-- Settles O4: no byte holds a value at reset, and the program text is empty. -/
theorem resetMeetsTheInvariant : Obligations.ResetMeetsTheInvariant :=
  ⟨rfl, reset_memory_wf, fun _ ha => absurd rfl ha, rfl⟩

/-- Settles O15: each of the three clauses names a fetched word that decodes to `i`. -/
theorem stepRunsTheDecodedInstruction : Obligations.StepRunsTheDecodedInstruction :=
  fun _ _ hal => ⟨fun _ hw hi => step_eq_exec hal hw hi,
    fun _ _ _ _ _ hw hb => step_eq_exec hal hw (decode_of_decodeBytes hb),
    fun hwf hw => step_eq_exec hal hw (decode_encode hwf)⟩

end Sys2Proof.Claims

/-! PROOFS. The statements on loads and stores (20_memory.md). `HoldsAt` says which value the bytes from an address up
make; `MemRead` answers exactly that value, `MemWrite` puts it there, and a part, a concatenation or a disjoint write
keeps it. The statements about loads and stores of every width follow from these. -/

namespace Sys2Proof.Machine

/-! ## The little-endian number of a value's bytes (R44, R45) -/

theorem leNat_append (as bs : List Byte) : leNat (as ++ bs) = leNat as + 256 ^ as.length * leNat bs := by
  induction as with
  | nil => simp [leNat]
  | cons a as ih => rw [List.cons_append, leNat, leNat, ih, List.length_cons, pow_succ]; ring

theorem leBytes_succ {w : Nat} (v : BitVec w) (n : Nat) :
    leBytes v (n + 1) = leBytes v n ++ [v.extractLsb' (8 * n) 8] := by
  simp [leBytes, List.range_succ]

/-- The `n` low bytes of a value make the value modulo `256^n`. -/
theorem leNat_leBytes {w : Nat} (v : BitVec w) (n : Nat) : leNat (leBytes v n) = v.toNat % 256 ^ n := by
  induction n with
  | zero => simp [leBytes, leNat, Nat.mod_one]
  | succ n ih =>
    have hbyte : (v.extractLsb' (8 * n) 8).toNat = v.toNat / 256 ^ n % 256 := by
      rw [BitVec.extractLsb'_toNat, Nat.shiftRight_eq_div_pow, pow_mul]; rfl
    rw [leBytes_succ, leNat_append, ih, leBytes_length, pow_succ, Nat.mod_mul]
    simp [leNat, hbyte]

theorem ofNat_leNat_leBytes {n : Nat} (v : BitVec (8 * n)) : BitVec.ofNat (8 * n) (leNat (leBytes v n)) = v := by
  have h : 256 ^ n = 2 ^ (8 * n) := by rw [pow_mul]; rfl
  rw [leNat_leBytes, h, Nat.mod_eq_of_lt v.isLt, BitVec.ofNat_toNat, BitVec.setWidth_eq]

/-- A slice of a slice is a slice. -/
theorem extract_extract {w : Nat} (v : BitVec w) {i j m l : Nat} (h : j + l ≤ m) :
    (v.extractLsb' i m).extractLsb' j l = v.extractLsb' (i + j) l := by
  apply BitVec.eq_of_getLsbD_eq
  intro k hk
  have : j + k < m := by omega
  simp [hk, this, Nat.add_assoc]

/-! ## The value the bytes from an address up hold -/

/-- The `n` bytes from `a` up are in `MEM_MAP` and hold the `n` low bytes of `v`, least significant first (R44). -/
def HoldsAt (s : State) (a n : Nat) {w : Nat} (v : BitVec w) : Prop :=
  ∀ k < n, mapped s (a + k) = true ∧ readByte s (a + k) = some (v.extractLsb' (8 * k) 8)

/-- What memory holds does not depend on the pc. -/
theorem holdsAt_advance (s : State) {a n w : Nat} {v : BitVec w} : HoldsAt (advance s) a n v ↔ HoldsAt s a n v :=
  Iff.rfl

section Holds

variable {s t : State} {a n : Nat} {w : Nat} {v : BitVec w}

/-- `MemRead` of an aligned address answers the value held there (R44). -/
theorem memRead_of_holdsAt {addr : Word} {v : BitVec (8 * n)} (hal : addr.toNat % n = 0)
    (h : HoldsAt s addr.toNat n v) : memRead s addr n = .ok v := by
  have hm : allMapped s addr.toNat n = true := (allMapped_iff s addr.toNat n).mpr fun k hk => (h k hk).1
  have hb : readBytes s.mem addr.toNat n = some (leBytes v n) :=
    (readBytes_eq_some_iff _ _ _ _).mpr
      ⟨leBytes_length v n, fun k hk => (h k hk).2.trans (leBytes_getElem? v hk).symm⟩
  rw [memRead_of_bytes hal hm hb, ofNat_leNat_leBytes]

/-- After a `MemWrite` that completes, its addresses hold the value written (R45). -/
theorem holdsAt_memWrite {addr : Word} {v : BitVec (8 * n)} (h : memWrite s addr n v = .ok t) :
    HoldsAt t addr.toNat n v := by
  intro k hk
  obtain ⟨-, hall, ht⟩ := memWrite_ok h
  have hm : mapped t (addr.toNat + k) = mapped s (addr.toNat + k) := by rw [ht]; rfl
  refine ⟨hm.trans ((allMapped_iff s addr.toNat n).mp hall k hk), ?_⟩
  rw [readByte_memWrite h, if_pos (by omega), Nat.add_sub_cancel_left]

/-- A `MemWrite` elsewhere leaves the value held (R45). -/
theorem HoldsAt.of_memWrite_disjoint {addr : Word} {m : Nat} {x : BitVec (8 * m)} (h : HoldsAt s a n v)
    (hw : memWrite s addr m x = .ok t) (hd : a + n ≤ addr.toNat ∨ addr.toNat + m ≤ a) : HoldsAt t a n v := by
  intro k hk
  obtain ⟨hm, hb⟩ := h k hk
  obtain ⟨-, -, ht⟩ := memWrite_ok hw
  have hm' : mapped t (a + k) = mapped s (a + k) := by rw [ht]; rfl
  refine ⟨hm'.trans hm, ?_⟩
  rw [readByte_memWrite hw, if_neg (by omega), hb]

/-- The bytes from the `j`-th up hold the value's slice (R60). -/
theorem HoldsAt.slice {j m : Nat} (h : HoldsAt s a n v) (hfit : j + m ≤ n) :
    HoldsAt s (a + j) m (v.extractLsb' (8 * j) (8 * m)) := by
  intro k hk
  obtain ⟨hm, hb⟩ := h (j + k) (by omega)
  rw [extract_extract v (by omega), Nat.add_assoc, ← Nat.mul_add]
  exact ⟨hm, hb⟩

/-- Values held next to each other are held as their concatenation, the higher address above (R44). -/
theorem HoldsAt.append {m : Nat} {hi : BitVec w} {lo : BitVec (8 * m)} (hlo : HoldsAt s a m lo)
    (hhi : HoldsAt s (a + m) n hi) : HoldsAt s a (m + n) (hi ++ lo) := by
  intro k hk
  by_cases h : k < m
  · rw [extract_append_low hi lo (by omega)]
    exact hlo k h
  · obtain ⟨j, rfl⟩ := Nat.exists_eq_add_of_le (Nat.le_of_not_lt h)
    have hj := hhi j (by omega)
    rwa [extract_append_high hi lo (by omega), Nat.mul_add, Nat.add_sub_cancel_left, ← Nat.add_assoc]

/-- A mapped byte that holds a value, as a value one byte wide. -/
theorem holdsAt_byte {b : Byte} (hm : mapped s a = true) (hb : readByte s a = some b) : HoldsAt s a 1 b := by
  intro k hk
  obtain rfl : k = 0 := by omega
  exact ⟨hm, by rw [extract_full]; exact hb⟩

/-- `MemRead` inside a wider held value answers its slice (R60). -/
theorem HoldsAt.memRead_slice {addr : Word} {j m : Nat} (h : HoldsAt s a n v) (haddr : addr.toNat = a + j)
    (hal : (a + j) % m = 0) (hfit : j + m ≤ n) : memRead s addr m = .ok (v.extractLsb' (8 * j) (8 * m)) :=
  memRead_of_holdsAt (haddr ▸ hal) (haddr ▸ h.slice hfit)

end Holds

/-- Inside an aligned word the byte addresses do not wrap (R49). -/
theorem toNat_add_of_aligned {a : Word} {j : Nat} (hal : a.toNat % 4 = 0) (hj : j < 4) :
    (a + BitVec.ofNat 32 j).toNat = a.toNat + j := by
  have := a.isLt
  rw [BitVec.toNat_add, BitVec.toNat_ofNat]
  omega

/-! ## Loads and stores by what their memory access answers -/

section Access

variable {s t : State} {rd rs1 rs2 : RegIdx} {off : Word} {n : Nat}

theorem load_of_memRead {widen : BitVec (8 * n) → Word} {v : BitVec (8 * n)}
    (h : memRead s (readReg s rs1 + off) n = .ok v) : load s rd rs1 off n widen = writeBack s rd (widen v) := by
  simp [load, orRaise, h]

theorem load_of_memRead_error {widen : BitVec (8 * n) → Word} {e : Fault}
    (h : memRead s (readReg s rs1 + off) n = .error e) : load s rd rs1 off n widen = .fault e := by
  simp [load, orRaise, raise, h]

theorem store_of_memWrite (h : memWrite s (readReg s rs1 + off) n ((readReg s rs2).setWidth (8 * n)) = .ok t) :
    store s rs1 rs2 off n = .next (advance t) := by
  simp [store, orRaise, h]

theorem store_of_memWrite_error {e : Fault}
    (h : memWrite s (readReg s rs1 + off) n ((readReg s rs2).setWidth (8 * n)) = .error e) :
    store s rs1 rs2 off n = .fault e := by
  simp [store, orRaise, raise, h]

/-- A load of the same width and address after a store that completed reads the low bytes stored (R55). -/
theorem memRead_after_store (h : store s rs1 rs2 off n = .next t) :
    memRead t (readReg t rs1 + off) n = .ok ((readReg s rs2).setWidth (8 * n)) := by
  obtain ⟨u, hu, rfl⟩ := store_next h
  obtain ⟨hal, -, hmem⟩ := memWrite_ok hu
  have hreg : readReg (advance u) rs1 = readReg s rs1 := by rw [readReg_advance, hmem]; rfl
  have hold : HoldsAt (advance u) (readReg s rs1 + off).toNat n ((readReg s rs2).setWidth (8 * n)) :=
    (holdsAt_advance u).mpr (holdsAt_memWrite hu)
  rw [hreg]
  exact memRead_of_holdsAt hal hold

end Access

/-- A byte of a word of `PROG` is not in `MEM_MAP` (R42). -/
theorem mapped_eq_false_of_text {s : State} {p x : Nat} {w : Word} (hw : (p, w) ∈ s.params.prog) (hlo : p ≤ x)
    (hhi : x < p + 4) : mapped s x = false := by
  have htext : inText s.params.prog x = true := List.any_eq_true.mpr ⟨(p, w), hw, by simp [hlo, hhi]⟩
  simp [mapped, htext]

end Sys2Proof.Machine

namespace Sys2Proof.Claims

open Machine

/-! ## The loads and stores among the instructions -/

section Families

variable {i : Instr} {s t : State} {rd rs1 rs2 : RegIdx} {imm : BitVec 12} {n : Nat}

/-- An instruction that writes back a value writes `rd`, moves to the next instruction and changes nothing else
(R26, R38). -/
theorem writesOnly_of_writeBack {v : Word} (h : exec i s = writeBack s rd v) :
    WritesOnly i s rd v (plus s.pc 4) :=
  ⟨advance (writeReg s rd v), h, fun hrd => readReg_writeReg_same s v hrd, readReg_x0 _,
    fun _ hr => readReg_writeReg_ne s v hr, by rw [advance_pc, writeReg_pc, plus_four],
    fun a => readByte_writeReg s rd v a, writeReg_params s rd v⟩

/-- A load whose `MemRead` answers writes the widened value (R140). -/
theorem writesOnly_of_memRead {off : Word} {widen : BitVec (8 * n) → Word} {v : BitVec (8 * n)}
    (hi : exec i s = load s rd rs1 off n widen) (h : memRead s (readReg s rs1 + off) n = .ok v) :
    WritesOnly i s rd (widen v) (plus s.pc 4) :=
  writesOnly_of_writeBack (hi.trans (load_of_memRead h))

/-- Every load is the shared load at its own width, for some widening (R140). -/
theorem exec_of_loadOf (h : LoadOf i rd rs1 imm n) : ∃ widen, ∀ s, exec i s = load s rd rs1 (sext12 imm) n widen := by
  rcases h with ⟨rfl, rfl⟩ | ⟨rfl, rfl⟩ | ⟨rfl, rfl⟩ | ⟨rfl, rfl⟩ | ⟨rfl, rfl⟩ <;> exact ⟨_, fun _ => rfl⟩

/-- Every store is the shared store at its own width (R160). -/
theorem exec_of_storeOf (h : StoreOf i rs1 rs2 imm n) (s : State) :
    exec i s = store s rs1 rs2 (sext12 imm) n := by
  rcases h with ⟨rfl, rfl⟩ | ⟨rfl, rfl⟩ | ⟨rfl, rfl⟩ <;> rfl

/-- The low `n` bits of a word, zero-extended back, are the word modulo `2^n`. -/
theorem zeroExtend_setWidth (x : Word) (n : Nat) :
    (x.setWidth n).zeroExtend 32 = BitVec.ofNat 32 (x.toNat % 2 ^ n) := by
  rw [← BitVec.toNat_setWidth, BitVec.ofNat_toNat]

end Families

/-! ## The statements -/

/-- Settles O29: bytes held next to each other are held as their concatenation, which the load of that width reads. -/
theorem loadsReadLittleEndian : Obligations.LoadsReadLittleEndian := by
  intro s rd rs1 imm a b0 b1 b2 b3 ha m0 r0
  have low : HoldsAt s a 1 b0 := holdsAt_byte m0 r0
  have read1 : memRead s (readReg s rs1 + sext12 imm) 1 = .ok b0 := memRead_of_holdsAt (Nat.mod_one _) (ha ▸ low)
  refine ⟨writesOnly_of_memRead (i := .lb rd rs1 imm) rfl read1, ?_, fun hal2 m1 r1 => ?_⟩
  · rw [BitVec.ofNat_toNat]
    exact writesOnly_of_memRead (i := .lbu rd rs1 imm) rfl read1
  have half : HoldsAt s a 2 (b1 ++ b0) := HoldsAt.append (m := 1) low (holdsAt_byte m1 r1)
  have read2 : memRead s (readReg s rs1 + sext12 imm) 2 = .ok (b1 ++ b0) := memRead_of_holdsAt (ha ▸ hal2) (ha ▸ half)
  refine ⟨writesOnly_of_memRead (i := .lh rd rs1 imm) rfl read2, ?_, fun hal4 m2 m3 r2 r3 => ?_⟩
  · rw [BitVec.ofNat_toNat]
    exact writesOnly_of_memRead (i := .lhu rd rs1 imm) rfl read2
  have upper : HoldsAt s (a + 2) 2 (b3 ++ b2) := HoldsAt.append (m := 1) (holdsAt_byte m2 r2) (holdsAt_byte m3 r3)
  have word : HoldsAt s a 4 (b3 ++ b2 ++ b1 ++ b0) :=
    HoldsAt.append (m := 1) low (HoldsAt.append (m := 1) (holdsAt_byte m1 r1) upper)
  exact writesOnly_of_memRead (i := .lw rd rs1 imm) rfl (memRead_of_holdsAt (ha ▸ hal4) (ha ▸ word))

/-- Settles O31: the two checks of `MemWrite` pass, and it changes the bytes of its own addresses alone. -/
theorem storesWriteLittleEndian : Obligations.StoresWriteLittleEndian := by
  rintro s i rs1 rs2 imm n a hi rfl hal hm
  have hu := memWrite_of_mapped ((readReg s rs2).setWidth (8 * n)) hal ((allMapped_iff s _ n).mpr hm)
  obtain ⟨hregs, hpc, hparams⟩ := memWrite_frame hu
  refine ⟨_, (exec_of_storeOf hi s).trans (store_of_memWrite hu), fun k hk => ?_, fun x hx => ?_,
    readReg_of_regs hregs, by rw [advance_pc, hpc, plus_four], hparams⟩
  · obtain ⟨-, hb⟩ := holdsAt_memWrite hu k hk
    rwa [BitVec.extractLsb'_setWidth_of_le (by omega)] at hb
  · rw [readByte_advance, readByte_memWrite hu, if_neg (by omega)]

/-- Settles O33: a narrower read sees a slice of the word held; a byte written inside it stands between the slices
below and above, which keep their values. -/
theorem mixedWidthAccesses : Obligations.MixedWidthAccesses := by
  intro s t u a w b hw
  obtain ⟨hal, -, -⟩ := memWrite_ok hw
  have hold := holdsAt_memWrite hw
  have ha1 : (a + 1#32).toNat = a.toNat + 1 := toNat_add_of_aligned hal (by omega)
  have ha2 : (a + 2#32).toNat = a.toNat + 2 := toNat_add_of_aligned hal (by omega)
  have ha3 : (a + 3#32).toNat = a.toNat + 3 := toNat_add_of_aligned hal (by omega)
  refine ⟨hold.memRead_slice (j := 0) rfl (by omega) (by omega), hold.memRead_slice ha1 (by omega) (by omega),
    hold.memRead_slice ha2 (by omega) (by omega), hold.memRead_slice ha3 (by omega) (by omega),
    hold.memRead_slice (j := 0) rfl (by omega) (by omega), hold.memRead_slice ha2 (by omega) (by omega),
    fun hb => memRead_of_holdsAt (n := 4) hal ?_⟩
  have below := (hold.slice (j := 0) (m := 1) (by omega)).of_memWrite_disjoint hb (by omega)
  have written := ha1 ▸ holdsAt_memWrite hb
  have above := (hold.slice (j := 2) (m := 2) (by omega)).of_memWrite_disjoint hb (by omega)
  exact HoldsAt.append (m := 1) below (HoldsAt.append (m := 1) written above)

/-- Settles O34: the load reads at the same address, as no store changes a register, and the bytes there hold what was
stored. -/
theorem loadSeesTheLatestStore : Obligations.LoadSeesTheLatestStore := by
  intro s t rd rs1 rs2 imm
  refine ⟨fun h => ?_, fun h => ?_, fun h => ?_⟩
  · have key := writesOnly_of_memRead (i := .lw rd rs1 imm) (rd := rd) rfl (memRead_after_store (n := 4) h)
    rwa [BitVec.setWidth_eq] at key
  · have key := writesOnly_of_memRead (i := .lhu rd rs1 imm) (rd := rd) rfl (memRead_after_store (n := 2) h)
    rwa [zeroExtend_setWidth] at key
  · have key := writesOnly_of_memRead (i := .lbu rd rs1 imm) (rd := rd) rfl (memRead_after_store (n := 1) h)
    rwa [zeroExtend_setWidth] at key

/-- Settles O35: the byte of the text is not mapped, so the second check of the access fails; no instruction changes a
parameter. -/
theorem programTextIsOutOfReach : Obligations.ProgramTextIsOutOfReach := by
  rintro s i rd rs1 rs2 imm n k p w a rfl hal hk hw hlo hhi
  have hout : allMapped s (readReg s rs1 + sext12 imm).toNat n = false :=
    allMapped_eq_false ⟨k, hk, mapped_eq_false_of_text hw hlo hhi⟩
  refine ⟨fun hi => ?_, fun hi => ?_, fun _ _ _ _ _ _ _ h => ?_⟩
  · obtain ⟨_, hex⟩ := exec_of_loadOf hi
    exact (hex s).trans (load_of_memRead_error (memRead_unmapped hal hout))
  · exact (exec_of_storeOf hi s).trans (store_of_memWrite_error (memWrite_unmapped _ hal hout))
  · rw [completes_params (exec_completes h)]

end Sys2Proof.Claims

/-! PROOFS. The statements on the decoder against the opcode table and against R86 (30_encoding.md). A word is the word
of its own fields, so a row's mask keeps exactly the fields its format fixes, and a word fits a row when it has those
fields of the encoder's word. Past the fetch only the decoder raises `IllegalInstruction`, and what it rejects is said
opcode by opcode. -/

namespace Sys2Proof

/-! ## A word and its fields (R71 to R77) -/

section Fields

variable (w : Word)

/-- A word is the R format's word of its own fields (R72). -/
theorem encodeR_fields :
    encodeR (funct7Of w) (funct3Of w) (opcodeOf w) (rdOf w) (rs1Of w) (rs2Of w) = w := by
  rw [encodeR, funct7Of, funct3Of, opcodeOf, rdOf, rs1Of, rs2Of, extract_append_extract w 20 7 5,
    extract_append_extract w 15 12 5, extract_append_extract w 12 17 3, extract_append_extract w 7 20 5,
    extract_append_extract w 0 25 7]
  exact extract_full w

/-- A word is the I format's word of its own fields (R73). -/
theorem encodeI_fields : encodeI (funct3Of w) (opcodeOf w) (rdOf w) (rs1Of w) (immIOf w) = w := by
  rw [encodeI, funct3Of, opcodeOf, rdOf, rs1Of, immIOf, extract_append_extract w 15 12 5,
    extract_append_extract w 12 17 3, extract_append_extract w 7 20 5, extract_append_extract w 0 25 7]
  exact extract_full w

/-- A word is the U format's word of its own fields (R77). -/
theorem encodeU_fields : encodeU (opcodeOf w) (rdOf w) (immUOf w) = w := by
  rw [encodeU, opcodeOf, rdOf, immUOf, extract_append_extract w 7 20 5, extract_append_extract w 0 25 7]
  exact extract_full w

end Fields

/-! ## The fields a mask keeps (95_test_vectors.md 2.1) -/

section Masks

variable {w v : Word}

theorem and_funct7_mask (w : Word) :
    w &&& 0xFE00707F#32 = encodeR (funct7Of w) (funct3Of w) (opcodeOf w) 0#5 0#5 0#5 := by
  conv_lhs => rw [← encodeR_fields w]
  exact encodeR_masked ..

theorem and_funct3_mask (w : Word) :
    w &&& 0x0000707F#32 = encodeI (funct3Of w) (opcodeOf w) 0#5 0#5 0#12 := by
  conv_lhs => rw [← encodeI_fields w]
  exact encodeI_masked ..

theorem and_opcode_mask (w : Word) : w &&& 0x0000007F#32 = encodeU (opcodeOf w) 0#5 0#20 := by
  conv_lhs => rw [← encodeU_fields w]
  exact encodeU_masked ..

theorem and_funct7_mask_eq_iff : w &&& 0xFE00707F#32 = v &&& 0xFE00707F#32 ↔
    opcodeOf w = opcodeOf v ∧ funct3Of w = funct3Of v ∧ funct7Of w = funct7Of v := by
  rw [and_funct7_mask, and_funct7_mask]
  refine ⟨fun h => ⟨?_, ?_, ?_⟩, fun ⟨hop, hf3, hf7⟩ => by rw [hop, hf3, hf7]⟩
  · simpa using congrArg opcodeOf h
  · simpa using congrArg funct3Of h
  · simpa using congrArg funct7Of h

theorem and_funct3_mask_eq_iff : w &&& 0x0000707F#32 = v &&& 0x0000707F#32 ↔
    opcodeOf w = opcodeOf v ∧ funct3Of w = funct3Of v := by
  rw [and_funct3_mask, and_funct3_mask]
  refine ⟨fun h => ⟨?_, ?_⟩, fun ⟨hop, hf3⟩ => by rw [hop, hf3]⟩
  · simpa using congrArg opcodeOf h
  · simpa using congrArg funct3Of h

theorem and_opcode_mask_eq_iff : w &&& 0x0000007F#32 = v &&& 0x0000007F#32 ↔ opcodeOf w = opcodeOf v := by
  rw [and_opcode_mask, and_opcode_mask]
  exact ⟨fun h => by simpa using congrArg opcodeOf h, fun hop => by rw [hop]⟩

end Masks

end Sys2Proof

namespace Sys2Proof.Claims

open Machine

/-! ## A word with the fixed bits of a row -/

/-- The word has the fixed bits of the instruction's row (95_test_vectors.md 2.1). -/
def FitsRow (w : Word) (i : Instr) : Prop := w &&& (opcodeRow i).mask = (opcodeRow i).value

/-- The encoder's word has the fixed bits of its row: `EncodingFitsRow` for every instruction, format by format. -/
theorem encode_fitsRow (i : Instr) : FitsRow (encode i) i := by
  cases i with
  | add | mul | addu | sub | subu | sll | slt | sltu | xor | div | srl | sra | or | rem | and | slli | srli | srai =>
    exact (encodeR_masked ..).trans rfl
  | addi | slti | sltiu | xori | ori | andi | lb | lh | lw | lbu | lhu | jalr => exact (encodeI_masked ..).trans rfl
  | ecall | ebreak => rfl
  | sb | sh | sw => exact (encodeS_masked ..).trans rfl
  | beq | bne | blt | bge | bltu | bgeu => exact (encodeB_masked ..).trans rfl
  | jal => exact (encodeJ_masked ..).trans rfl
  | lui | auipc => exact (encodeU_masked ..).trans rfl

section Fits

variable {w : Word} {i : Instr}

theorem fitsRow_iff_encode : FitsRow w i ↔ w &&& (opcodeRow i).mask = encode i &&& (opcodeRow i).mask := by
  rw [FitsRow, ← encode_fitsRow i]

/-- Rows that fix opcode, funct3 and funct7 (R72, R78). -/
theorem fitsRow_iff_funct7 (hm : (opcodeRow i).mask = 0xFE00707F#32) : FitsRow w i ↔
    opcodeOf w = opcodeOf (encode i) ∧ funct3Of w = funct3Of (encode i) ∧ funct7Of w = funct7Of (encode i) := by
  rw [fitsRow_iff_encode, hm, and_funct7_mask_eq_iff]

/-- Rows that fix opcode and funct3 (R73 to R75). -/
theorem fitsRow_iff_funct3 (hm : (opcodeRow i).mask = 0x0000707F#32) : FitsRow w i ↔
    opcodeOf w = opcodeOf (encode i) ∧ funct3Of w = funct3Of (encode i) := by
  rw [fitsRow_iff_encode, hm, and_funct3_mask_eq_iff]

/-- Rows that fix the opcode alone (R76, R77). -/
theorem fitsRow_iff_opcode (hm : (opcodeRow i).mask = 0x0000007F#32) :
    FitsRow w i ↔ opcodeOf w = opcodeOf (encode i) := by
  rw [fitsRow_iff_encode, hm, and_opcode_mask_eq_iff]

/-- Rows that fix the whole word (R87). -/
theorem fitsRow_iff_word (hm : (opcodeRow i).mask = 0xFFFFFFFF#32) : FitsRow w i ↔ w = encode i := by
  have hones (x : Word) : x &&& 0xFFFFFFFF#32 = x := BitVec.and_allOnes
  rw [fitsRow_iff_encode, hm, hones, hones]

end Fits

/-! ## Mnemonics name rows (R90) -/

/-- One instruction of every mnemonic. -/
def oneOfEach : List Instr :=
  [.add 0 0 0, .mul 0 0 0, .addu 0 0 0, .sub 0 0 0, .subu 0 0 0, .sll 0 0 0, .slt 0 0 0, .sltu 0 0 0, .xor 0 0 0,
    .div 0 0 0, .srl 0 0 0, .sra 0 0 0, .or 0 0 0, .rem 0 0 0, .and 0 0 0, .addi 0 0 0, .slli 0 0 0, .slti 0 0 0,
    .sltiu 0 0 0, .xori 0 0 0, .srli 0 0 0, .srai 0 0 0, .ori 0 0 0, .andi 0 0 0, .lb 0 0 0, .lh 0 0 0, .lw 0 0 0,
    .lbu 0 0 0, .lhu 0 0 0, .ecall, .ebreak, .sb 0 0 0, .sh 0 0 0, .sw 0 0 0, .beq 0 0 0, .bne 0 0 0, .blt 0 0 0,
    .bge 0 0 0, .bltu 0 0 0, .bgeu 0 0 0, .jal 0 0, .jalr 0 0 0, .lui 0 0, .auipc 0 0]

/-- The row found by its mnemonic alone; `rowNamed_mnemonic` says it is the opcode table's. -/
def rowNamed (m : String) : Option OpcodeRow := (oneOfEach.find? fun i => decide (i.mnemonic = m)).map opcodeRow

theorem rowNamed_mnemonic (i : Instr) : rowNamed i.mnemonic = some (opcodeRow i) := by
  cases i <;> rfl

theorem opcodeRow_eq_of_mnemonic_eq {i j : Instr} (h : i.mnemonic = j.mnemonic) : opcodeRow i = opcodeRow j :=
  Option.some.inj (by rw [← rowNamed_mnemonic, ← rowNamed_mnemonic, h])

/-! ## Decoding and the rows (R84) -/

/-- Whatever instruction the decoder answers has the property. -/
def Gives (P : Instr → Prop) (x : Except Reject Instr) : Prop := ∀ j, x = .ok j → P j

section Gives

variable {P : Instr → Prop} {c : Prop} [Decidable c] {i : Instr} {x y : Except Reject Instr}

theorem Gives.ok (h : P i) : Gives P (.ok i) := fun _ hj => Except.ok.inj hj ▸ h

theorem Gives.error (r : Reject) : Gives P (.error r) := fun _ hj => nomatch hj

theorem Gives.ite (hx : c → Gives P x) (hy : ¬ c → Gives P y) : Gives P (if c then x else y) := by
  split
  next hc => exact hx hc
  next hc => exact hy hc

end Gives

theorem funct3_eq_seven {f : BitVec 3} (h0 : f ≠ 0#3) (h1 : f ≠ 1#3) (h2 : f ≠ 2#3) (h3 : f ≠ 3#3) (h4 : f ≠ 4#3)
    (h5 : f ≠ 5#3) (h6 : f ≠ 6#3) : f = 7#3 := by bv_omega

section Families

variable {w : Word} {i : Instr}

/-! The decoder may answer an instruction whose fixed fields, those its row's mask keeps, are the word's. -/

theorem Gives.ok_funct7 (hm : (opcodeRow i).mask = 0xFE00707F#32) (h : opcodeOf w = opcodeOf (encode i) ∧
    funct3Of w = funct3Of (encode i) ∧ funct7Of w = funct7Of (encode i)) : Gives (FitsRow w) (.ok i) :=
  .ok ((fitsRow_iff_funct7 hm).mpr h)

theorem Gives.ok_funct3 (hm : (opcodeRow i).mask = 0x0000707F#32)
    (h : opcodeOf w = opcodeOf (encode i) ∧ funct3Of w = funct3Of (encode i)) : Gives (FitsRow w) (.ok i) :=
  .ok ((fitsRow_iff_funct3 hm).mpr h)

theorem Gives.ok_opcode (hm : (opcodeRow i).mask = 0x0000007F#32) (h : opcodeOf w = opcodeOf (encode i)) :
    Gives (FitsRow w) (.ok i) := .ok ((fitsRow_iff_opcode hm).mpr h)

theorem decodeR_fitsRow (hop : opcodeOf w = 0b0110011#7) : Gives (FitsRow w) (decodeR w) := by
  unfold decodeR
  repeat refine Gives.ite (fun hf => .ok_funct7 rfl (by simp [encode, hop, hf])) fun _ => ?_
  exact .error _

theorem decodeImm_fitsRow (hop : opcodeOf w = 0b0010011#7) : Gives (FitsRow w) (decodeImm w) := by
  unfold decodeImm
  refine .ite (fun _ => ?addi) fun h0 => .ite (fun _ => .ite (fun _ => ?slli) fun _ => .error _) fun h1 =>
    .ite (fun _ => ?slti) fun h2 => .ite (fun _ => ?sltiu) fun h3 => .ite (fun _ => ?xori) fun h4 =>
    .ite (fun _ => .ite (fun _ => ?srli) fun _ => .ite (fun _ => ?srai) fun _ => .error _) fun h5 =>
    .ite (fun _ => ?ori) fun h6 => ?andi
  case slli | srli | srai => exact .ok_funct7 rfl (by simp [encode, *])
  case addi | slti | sltiu | xori | ori => exact .ok_funct3 rfl (by simp [encode, *])
  case andi =>
    have hf3 := funct3_eq_seven h0 h1 h2 h3 h4 h5 h6
    exact .ok_funct3 rfl (by simp [encode, hop, hf3])

theorem decodeLoad_fitsRow (hop : opcodeOf w = 0b0000011#7) : Gives (FitsRow w) (decodeLoad w) := by
  unfold decodeLoad
  repeat refine Gives.ite (fun hf => .ok_funct3 rfl (by simp [encode, hop, hf])) fun _ => ?_
  exact .error _

theorem decodeStore_fitsRow (hop : opcodeOf w = 0b0100011#7) : Gives (FitsRow w) (decodeStore w) := by
  unfold decodeStore
  repeat refine Gives.ite (fun hf => .ok_funct3 rfl (by simp [encode, hop, hf])) fun _ => ?_
  exact .error _

theorem decodeBranch_fitsRow (hop : opcodeOf w = 0b1100011#7) : Gives (FitsRow w) (decodeBranch w) := by
  unfold decodeBranch
  repeat refine Gives.ite (fun hf => .ok_funct3 rfl (by simp [encode, hop, hf])) fun _ => ?_
  exact .error _

theorem decodeJalr_fitsRow (hop : opcodeOf w = 0b1100111#7) : Gives (FitsRow w) (decodeJalr w) := by
  unfold decodeJalr
  exact .ite (fun hf => .ok_funct3 rfl (by simp [encode, hop, hf])) fun _ => .error _

theorem decodeSystem_fitsRow : Gives (FitsRow w) (decodeSystem w) :=
  .ite (fun h => .ok ((fitsRow_iff_word rfl).mpr h)) fun _ =>
    .ite (fun h => .ok ((fitsRow_iff_word rfl).mpr h)) fun _ => .error _

/-- A word that decodes has the fixed bits of the row of the instruction it decodes to (R84). -/
theorem decode_fitsRow (w : Word) : Gives (FitsRow w) (decode w) :=
  .ite decodeR_fitsRow fun _ => .ite decodeImm_fitsRow fun _ => .ite decodeLoad_fitsRow fun _ =>
    .ite (fun _ => decodeSystem_fitsRow) fun _ => .ite decodeStore_fitsRow fun _ => .ite decodeBranch_fitsRow fun _ =>
    .ite (fun hop => .ok_opcode rfl (by simp [encode, hop])) fun _ =>
    .ite decodeJalr_fitsRow fun _ =>
    .ite (fun hop => .ok_opcode rfl (by simp [encode, hop])) fun _ =>
    .ite (fun hop => .ok_opcode rfl (by simp [encode, hop])) fun _ => .error _

end Families

/-- A word with the fixed bits of a row decodes to an instruction of the row: the bits the row fixes are all that the
decoder looks at on its way there (R84). -/
theorem decode_of_fitsRow {w : Word} {i : Instr} (h : FitsRow w i) :
    ∃ j, decode w = .ok j ∧ j.mnemonic = i.mnemonic := by
  cases i with
  | add | mul | addu | sub | subu | sll | slt | sltu | xor | div | srl | sra | or | rem | and | slli | srli | srai =>
    obtain ⟨hop, hf3, hf7⟩ := (fitsRow_iff_funct7 rfl).mp h
    simp only [encode, opcodeOf_encodeR, funct3Of_encodeR, funct7Of_encodeR] at hop hf3 hf7
    simp [decode, decodeR, decodeImm, hop, hf3, hf7, Instr.mnemonic]
  | addi | slti | sltiu | xori | ori | andi | lb | lh | lw | lbu | lhu | jalr =>
    obtain ⟨hop, hf3⟩ := (fitsRow_iff_funct3 rfl).mp h
    simp only [encode, opcodeOf_encodeI, funct3Of_encodeI] at hop hf3
    simp [decode, decodeImm, decodeLoad, decodeJalr, hop, hf3, Instr.mnemonic]
  | ecall | ebreak =>
    rw [(fitsRow_iff_word rfl).mp h]
    exact ⟨_, rfl, rfl⟩
  | sb | sh | sw =>
    obtain ⟨hop, hf3⟩ := (fitsRow_iff_funct3 rfl).mp h
    simp only [encode, opcodeOf_encodeS, funct3Of_encodeS] at hop hf3
    simp [decode, decodeStore, hop, hf3, Instr.mnemonic]
  | beq | bne | blt | bge | bltu | bgeu =>
    obtain ⟨hop, hf3⟩ := (fitsRow_iff_funct3 rfl).mp h
    simp only [encode, opcodeOf_encodeB, funct3Of_encodeB] at hop hf3
    simp [decode, decodeBranch, hop, hf3, Instr.mnemonic]
  | jal | lui | auipc =>
    have hop := (fitsRow_iff_opcode rfl).mp h
    simp only [encode, opcodeOf_encodeJ, opcodeOf_encodeU] at hop
    simp [decode, hop, Instr.mnemonic]

/-! ## Words the decoder rejects (R86) -/

/-- The decoder answers no instruction. -/
def Rejects (x : Except Reject Instr) : Prop := ∃ r, x = .error r

@[simp] theorem not_rejects_ok (i : Instr) : ¬ Rejects (.ok i) := fun ⟨_, h⟩ => nomatch h

@[simp] theorem rejects_error (r : Reject) : Rejects (.error r) := ⟨r, rfl⟩

theorem rejects_ite_ok {c : Prop} [Decidable c] {i : Instr} {y : Except Reject Instr} :
    Rejects (if c then .ok i else y) ↔ ¬ c ∧ Rejects y := by
  split <;> simp [*]

section Rejected

variable {w : Word}

theorem decode_eq_decodeSystem (h : opcodeOf w = 0b1110011#7) : decode w = decodeSystem w := by simp [decode, h]

/-- R86 (b), where the rule lists the rows by funct7 and the decoder has `sub` before `subu`. -/
theorem decodeR_rejects_iff : Rejects (decodeR w) ↔ (funct3Of w, funct7Of w) ∉ [(0b000#3, 0x00#7), (0b000#3, 0x01#7),
    (0b000#3, 0x02#7), (0b000#3, 0x04#7), (0b000#3, 0x20#7), (0b001#3, 0x00#7), (0b010#3, 0x00#7), (0b011#3, 0x00#7),
    (0b100#3, 0x00#7), (0b100#3, 0x01#7), (0b101#3, 0x00#7), (0b101#3, 0x20#7), (0b110#3, 0x00#7), (0b110#3, 0x01#7),
    (0b111#3, 0x00#7)] := by
  simp only [decodeR, rejects_ite_ok, rejects_error, and_true, List.mem_cons, List.not_mem_nil, or_false, not_or,
    Prod.mk.injEq]
  rw [and_left_comm (a := ¬ (funct3Of w = 0b000#3 ∧ funct7Of w = 0x20#7))]

/-- R86 (c). -/
theorem decodeImm_rejects_iff : Rejects (decodeImm w) ↔ (funct3Of w = 0b001#3 ∧ funct7Of w ≠ 0x00#7) ∨
    (funct3Of w = 0b101#3 ∧ funct7Of w ≠ 0x00#7 ∧ funct7Of w ≠ 0x20#7) := by
  by_cases h1 : funct3Of w = 0b001#3
  · simp [decodeImm, rejects_ite_ok, h1]
  by_cases h5 : funct3Of w = 0b101#3
  · simp [decodeImm, rejects_ite_ok, h5]
  · simp [decodeImm, rejects_ite_ok, h1, h5]

/-- R86 (d). -/
theorem decodeLoad_rejects_iff : Rejects (decodeLoad w) ↔ funct3Of w ∈ [0b011#3, 0b110#3, 0b111#3] := by
  simp only [decodeLoad, rejects_ite_ok, rejects_error]
  generalize funct3Of w = f
  decide +revert

/-- R86 (e). -/
theorem decodeStore_rejects_iff :
    Rejects (decodeStore w) ↔ funct3Of w ∈ [0b011#3, 0b100#3, 0b101#3, 0b110#3, 0b111#3] := by
  simp only [decodeStore, rejects_ite_ok, rejects_error]
  generalize funct3Of w = f
  decide +revert

/-- R86 (f). -/
theorem decodeBranch_rejects_iff : Rejects (decodeBranch w) ↔ funct3Of w ∈ [0b010#3, 0b011#3] := by
  simp only [decodeBranch, rejects_ite_ok, rejects_error]
  generalize funct3Of w = f
  decide +revert

/-- R86 (g). -/
theorem decodeJalr_rejects_iff : Rejects (decodeJalr w) ↔ funct3Of w ≠ 0b000#3 := by
  simp [decodeJalr, rejects_ite_ok]

/-- R86 (h). -/
theorem decodeSystem_rejects_iff : Rejects (decodeSystem w) ↔ w ≠ 0x00000073#32 ∧ w ≠ 0x00100073#32 := by
  simp [decodeSystem, rejects_ite_ok]

/-- The decoder rejects exactly the illegal words, opcode by opcode (R86). -/
theorem decode_rejects_iff : Rejects (decode w) ↔ IllegalWord w := by
  by_cases hR : opcodeOf w = 0b0110011#7
  · simp [decode_eq_decodeR hR, decodeR_rejects_iff, IllegalWord, hR]
  by_cases hI : opcodeOf w = 0b0010011#7
  · simp [decode_eq_decodeImm hI, decodeImm_rejects_iff, IllegalWord, hI]
  by_cases hL : opcodeOf w = 0b0000011#7
  · simp [decode_eq_decodeLoad hL, decodeLoad_rejects_iff, IllegalWord, hL]
  by_cases hY : opcodeOf w = 0b1110011#7
  · simp [decode_eq_decodeSystem hY, decodeSystem_rejects_iff, IllegalWord, hY]
  by_cases hS : opcodeOf w = 0b0100011#7
  · simp [decode_eq_decodeStore hS, decodeStore_rejects_iff, IllegalWord, hS]
  by_cases hB : opcodeOf w = 0b1100011#7
  · simp [decode_eq_decodeBranch hB, decodeBranch_rejects_iff, IllegalWord, hB]
  by_cases hJ : opcodeOf w = 0b1100111#7
  · simp [decode_eq_decodeJalr hJ, decodeJalr_rejects_iff, IllegalWord, hJ]
  by_cases hU : opcodeOf w = 0b0110111#7
  · simp [decode, IllegalWord, hU]
  by_cases hA : opcodeOf w = 0b0010111#7
  · simp [decode, IllegalWord, hA]
  · simp [decode, rejects_ite_ok, IllegalWord, hR, hI, hL, hY, hS, hB, hJ, hU, hA]

end Rejected

/-! ## The faults an instruction can raise (R200) -/

/-- The faults `i` can raise from `s`: of a jump or branch target, of a memory access, on overflow, or the
environment's call. -/
inductive Raises (i : Instr) (s : State) : Fault → Prop where
  | target (p : Word) : Raises i s (.instructionAddressMisaligned p)
  | reads {addr : Word} {n : Nat} {e : Fault} (h : memRead s addr n = .error e) : Raises i s e
  | stores {addr : Word} {n : Nat} {v : BitVec (8 * n)} {e : Fault} (h : memWrite s addr n v = .error e) : Raises i s e
  | overflow (hp : s.params.overflowPolicy = .fault) (hi : i.mnemonic ∈ ["add", "sub", "addi"]) :
      Raises i s (.arithmeticOverflow s.pc)
  | call (hi : i = .ecall) : Raises i s (.environmentCall s.pc)

section Faults

variable {i : Instr} {s : State} {e : Fault} {rd rs1 rs2 : RegIdx} {off : Word} {n : Nat}

theorem memRead_error {addr : Word} (h : memRead s addr n = .error e) :
    e = .loadAddressMisaligned addr ∨ e = .loadAccessFault addr ∨ e = .uninitialisedRead addr := by
  unfold memRead at h
  split at h
  · cases h; exact .inl rfl
  split at h
  · cases h; exact .inr (.inl rfl)
  split at h
  · cases h; exact .inr (.inr rfl)
  · cases h

theorem memWrite_error {addr : Word} {v : BitVec (8 * n)} (h : memWrite s addr n v = .error e) :
    e = .storeAddressMisaligned addr ∨ e = .storeAccessFault addr := by
  unfold memWrite at h
  split at h
  · cases h; exact .inl rfl
  split at h
  · cases h; exact .inr rfl
  · cases h

theorem raises_of_writeBackChecked {o : Bool} {v : Word} (hi : i.mnemonic ∈ ["add", "sub", "addi"])
    (h : writeBackChecked s rd o v = .fault e) : Raises i s e := by
  rcases writeBackChecked_cases s rd o v with h' | ⟨hp, -, h'⟩
  · rw [h', writeBack_eq] at h; cases h
  · rw [h'] at h; cases h; exact .overflow hp hi

theorem raises_of_load {widen : BitVec (8 * n) → Word} (h : load s rd rs1 off n widen = .fault e) : Raises i s e := by
  unfold load orRaise at h
  split at h
  · cases h
  next hr => cases h; exact .reads hr

theorem raises_of_store (h : store s rs1 rs2 off n = .fault e) : Raises i s e := by
  unfold store orRaise at h
  split at h
  · cases h
  next hw => cases h; exact .stores hw

theorem raises_of_branch {taken : Bool} (h : branch s taken off = .fault e) : Raises i s e := by
  unfold branch at h
  split at h
  · split at h
    · cases h
    · cases h; exact .target _
  · cases h

theorem raises_of_jumpAndLink {target : Word} (h : jumpAndLink s rd target = .fault e) : Raises i s e := by
  unfold jumpAndLink at h
  split at h
  · cases h
  · cases h; exact .target _

/-- Every fault of an instruction is one of these. -/
theorem exec_raises (h : exec i s = .fault e) : Raises i s e := by
  cases i with
  | add | sub | addi => exact raises_of_writeBackChecked (by simp [Instr.mnemonic]) h
  | mul | addu | subu | sll | slt | sltu | xor | div | srl | sra | or | rem | and
  | slli | slti | sltiu | xori | srli | srai | ori | andi | lui | auipc => cases h
  | lb | lh | lw | lbu | lhu => exact raises_of_load h
  | sb | sh | sw => exact raises_of_store h
  | beq | bne | blt | bge | bltu | bgeu => exact raises_of_branch h
  | jal | jalr => exact raises_of_jumpAndLink h
  | ecall => cases h; exact .call rfl
  | ebreak => cases h

/-- No instruction raises `IllegalInstruction`: that is the decoder's answer alone (R202). -/
theorem exec_ne_illegalInstruction (i : Instr) (s : State) (p w : Word) :
    exec i s ≠ .fault (.illegalInstruction p w) := by
  intro h
  cases exec_raises h with
  | reads hr => simpa using memRead_error hr
  | stores hw => simpa using memWrite_error hw

/-- At an aligned pc the step raises `IllegalInstruction` exactly when the decoder rejects the fetched word (R202). -/
theorem step_illegalInstruction_iff {s : State} {w : Word} (hal : s.pc.toNat % 4 = 0)
    (hw : cellsFind s.params.prog s.pc.toNat = some w) :
    step s = .fault (.illegalInstruction s.pc w) ↔ Rejects (decode w) := by
  cases hd : decode w with
  | ok i => simp [step_eq_exec hal hw hd, exec_ne_illegalInstruction]
  | error r =>
    have hf := (fetch_ok_iff s s.pc w).mpr hw
    have hpc := (aligned4_iff s.pc).mpr hal
    simp [step, hpc, hf, orRaise, hd, raise]

end Faults

/-! ## The statements -/

/-- Settles O12: what decodes fits its row, which its mnemonic names, and what fits a row decodes to its mnemonic. -/
theorem decodeIsTheOpcodeTable : Obligations.DecodeIsTheOpcodeTable := by
  refine fun w i => ⟨fun ⟨j, hj, hm⟩ => ?_, decode_of_fitsRow⟩
  rw [← opcodeRow_eq_of_mnemonic_eq hm]
  exact decode_fitsRow w j hj

/-- Settles O13: past the fetch only the decoder raises `IllegalInstruction`, and it rejects the words of (a) to (h). -/
theorem illegalWordsRaise : Obligations.IllegalWordsRaise :=
  fun _ _ hal hw => (step_illegalInstruction_iff hal hw).trans decode_rejects_iff

end Sys2Proof.Claims

/-! PROOFS. The statements on the R type instructions (41_r_type.md). Every one of them writes back one value, so each
statement is that value's arithmetic: the laws of the model's sums, shifts, comparisons and signed division, put into
the shared write. -/

namespace Sys2Proof.Machine

/-! ## Sums, differences and products as numbers (R101 to R105) -/

section Arithmetic

theorem ofInt_sub (x y : Int) : BitVec.ofInt 32 (x - y) = BitVec.ofInt 32 x - BitVec.ofInt 32 y := by
  rw [sub_eq_add_neg, BitVec.ofInt_add, BitVec.ofInt_neg, BitVec.sub_eq_add_neg]

theorem ofInt_toNat (a : Word) : BitVec.ofInt 32 a.toNat = a := by
  rw [BitVec.ofInt_natCast, BitVec.ofNat_toNat, BitVec.setWidth_eq]

variable (a b : Word)

theorem add_eq_ofInt : a + b = BitVec.ofInt 32 (a.toInt + b.toInt) := by
  rw [BitVec.ofInt_add, BitVec.ofInt_toInt, BitVec.ofInt_toInt]

theorem sub_eq_ofInt : a - b = BitVec.ofInt 32 (a.toInt - b.toInt) := by
  rw [ofInt_sub, BitVec.ofInt_toInt, BitVec.ofInt_toInt]

/-- The unsigned difference may be negative; modulo `2^32` it is the same word as the signed one. -/
theorem sub_eq_ofInt_toNat : a - b = BitVec.ofInt 32 (a.toNat - b.toNat : Int) := by
  rw [ofInt_sub, ofInt_toNat, ofInt_toNat]

theorem mul_eq_ofInt : a * b = BitVec.ofInt 32 (a.toInt * b.toInt) := by
  rw [BitVec.ofInt_mul, BitVec.ofInt_toInt, BitVec.ofInt_toInt]

theorem mul_eq_ofNat : a * b = BitVec.ofNat 32 (a.toNat * b.toNat) :=
  BitVec.eq_of_toNat_eq (by rw [BitVec.toNat_mul, BitVec.toNat_ofNat])

end Arithmetic

/-! ## Shifts as multiplication and division by a power of two (R106, R111, R112, R119) -/

theorem shiftByReg_eq (b : Word) : shiftByReg b = b.toNat % 32 := by
  rw [shiftByReg, BitVec.extractLsb'_toNat, Nat.shiftRight_zero]

theorem shiftLeft_eq_ofNat (a : Word) (n : Nat) : shiftLeft a n = BitVec.ofNat 32 (a.toNat * 2 ^ n) := by
  apply BitVec.eq_of_toNat_eq
  rw [shiftLeft, BitVec.toNat_shiftLeft, Nat.shiftLeft_eq, BitVec.toNat_ofNat]

theorem shiftRightLogical_eq_ofNat (a : Word) (n : Nat) :
    shiftRightLogical a n = BitVec.ofNat 32 (a.toNat / 2 ^ n) := by
  rw [shiftRightLogical, ← Nat.shiftRight_eq_div_pow, ← BitVec.toNat_ushiftRight, BitVec.ofNat_toNat,
    BitVec.setWidth_eq]

theorem shiftRightArith_eq_ofInt (a : Word) (n : Nat) : shiftRightArith a n = BitVec.ofInt 32 (a.toInt / 2 ^ n) := by
  have hshift : (shiftRightArith a n).toInt = a.toInt / 2 ^ n := by
    rw [shiftRightArith, BitVec.toInt_sshiftRight, Int.shiftRight_eq_div_pow]
    norm_cast
  rw [← hshift, BitVec.ofInt_toInt]

/-! ## Comparisons (R107, R108) -/

theorem boolWord_decide (p : Prop) [Decidable p] : boolWord (decide p) = if p then 1#32 else 0#32 := by
  simp only [boolWord, decide_eq_true_eq]

theorem boolWord_ltS (a b : Word) : boolWord (ltS a b) = if a.toInt < b.toInt then 1#32 else 0#32 := boolWord_decide _

theorem boolWord_ltU (a b : Word) : boolWord (ltU a b) = if a.toNat < b.toNat then 1#32 else 0#32 := boolWord_decide _

/-! ## Division rounded toward zero (R118) -/

section Rounding

variable {a b : Int}

/-- Rounded toward zero, a quotient is negative exactly when the signs differ and it is not rounded to zero. -/
theorem tdiv_neg_iff :
    a.tdiv b < 0 ↔ ((a < 0 ∧ 0 < b) ∨ (0 < a ∧ b < 0)) ∧ b.natAbs ≤ a.natAbs := by
  rw [← Int.sign_neg_iff, Int.sign_tdiv]
  split
  · omega
  · rw [← Int.sign_mul, Int.sign_neg_iff, mul_neg_iff]
    omega

/-- The remainder of that division is zero or has the dividend's sign. -/
theorem tmod_eq_zero_or_neg_iff : a.tmod b = 0 ∨ (a.tmod b < 0 ↔ a < 0) := by
  by_cases hdvd : b ∣ a
  · exact .inl (Int.tmod_eq_zero_of_dvd hdvd)
  · right
    rw [← Int.sign_neg_iff, Int.sign_tmod, if_neg hdvd, Int.sign_neg_iff]

theorem natAbs_tmod_lt (hb : b ≠ 0) : (a.tmod b).natAbs < b.natAbs := by
  rw [Int.natAbs_tmod]
  exact Nat.mod_lt _ (Int.natAbs_pos.mpr hb)

end Rounding

section Division

variable {a b : Word}

/-- The overflowing division, in numbers. -/
theorem divOverflows_iff : divOverflows a b = true ↔ a.toInt = -2 ^ 31 ∧ b.toInt = -1 := by
  have ha : a.toInt = -2 ^ 31 ↔ a = 0x80000000#32 := BitVec.toInt_inj (y := 0x80000000#32)
  have hb : b.toInt = -1 ↔ b = 0xFFFFFFFF#32 := BitVec.toInt_inj (y := 0xFFFFFFFF#32)
  rw [ha, hb, divOverflows, Bool.and_eq_true, decide_eq_true_eq, decide_eq_true_eq]

theorem divResult_zero (h : b = 0#32) : divResult a b = Config.divZero a := if_pos h

theorem remResult_zero (h : b = 0#32) : remResult a b = Config.remZero a := if_pos h

theorem divResult_overflow (hb : b ≠ 0#32) (ho : divOverflows a b = true) : divResult a b = Config.divOvf := by
  rw [divResult, if_neg hb, if_pos ho]

theorem remResult_overflow (hb : b ≠ 0#32) (ho : divOverflows a b = true) : remResult a b = Config.remOvf := by
  rw [remResult, if_neg hb, if_pos ho]

/-- Away from the two open cases the quotient fits a word, so `div` writes it unchanged. -/
theorem toInt_divResult (hb : b ≠ 0#32) (ho : ¬ divOverflows a b = true) :
    (divResult a b).toInt = a.toInt.tdiv b.toInt := by
  have hne : a ≠ BitVec.intMin 32 ∨ b ≠ -1#32 := by
    rw [divOverflows, Bool.and_eq_true, decide_eq_true_eq, decide_eq_true_eq] at ho
    exact not_and_or.mp ho
  rw [divResult, if_neg hb, if_neg ho, BitVec.toInt_ofInt, quotient, ← BitVec.toInt_sdiv,
    BitVec.toInt_sdiv_of_ne_or_ne a b hne]

/-- Away from the two open cases `rem` writes the remainder of the division rounded toward zero. -/
theorem toInt_remResult (hb : b ≠ 0#32) (ho : ¬ divOverflows a b = true) :
    (remResult a b).toInt = a.toInt.tmod b.toInt := by
  have hrem : a.toInt - quotient a b * b.toInt = (a.srem b).toInt := by
    rw [quotient, Int.tdiv_mul_self, sub_sub_cancel, BitVec.toInt_srem]
  rw [remResult, if_neg hb, if_neg ho, hrem, BitVec.ofInt_toInt, BitVec.toInt_srem]

end Division

end Sys2Proof.Machine

namespace Sys2Proof.Claims

open Machine

/-- What is written may be named by any expression of its value. -/
theorem writesOnly_of_writeBack_eq {i : Instr} {s : State} {rd : RegIdx} {v w : Word} (h : exec i s = writeBack s rd v)
    (hv : v = w) : WritesOnly i s rd w (plus s.pc 4) :=
  hv ▸ writesOnly_of_writeBack h

/-! ## The statements -/

/-- Settles O17: under `wrap` the checked write is the plain one, so `add` and `sub` are `addu` and `subu`. -/
theorem addSubWrapByDefault : Obligations.AddSubWrapByDefault := by
  intro s rd rs1 rs2 imm hwrap
  have hadd : exec (.add rd rs1 rs2) s = exec (.addu rd rs1 rs2) s := writeBackChecked_wrap hwrap rd _ _
  have hsub : exec (.sub rd rs1 rs2) s = exec (.subu rd rs1 rs2) s := writeBackChecked_wrap hwrap rd _ _
  have haddi : exec (.addi rd rs1 imm) s = writeBack s rd (readReg s rs1 + sext12 imm) :=
    writeBackChecked_wrap hwrap rd _ _
  exact ⟨writesOnly_of_writeBack_eq hadd (add_eq_ofInt _ _), writesOnly_of_writeBack_eq hsub (sub_eq_ofInt _ _),
    writesOnly_of_writeBack_eq haddi (plus_sext12 _ imm).symm, hadd, hsub⟩

/-- Settles O18. -/
theorem adduSubuIgnoreOverflow : Obligations.AdduSubuIgnoreOverflow := fun _ _ _ _ =>
  ⟨writesOnly_of_writeBack_eq rfl (BitVec.add_def _ _), writesOnly_of_writeBack_eq rfl (sub_eq_ofInt_toNat _ _)⟩

/-- Settles O20: the product of the words is both readings' product modulo `2^32`. -/
theorem mulWritesTheLowWord : Obligations.MulWritesTheLowWord := fun _ _ _ _ =>
  ⟨writesOnly_of_writeBack_eq rfl (mul_eq_ofNat _ _), writesOnly_of_writeBack_eq rfl (mul_eq_ofInt _ _)⟩

/-- Settles O21: the low five bits of `x[rs2]` are its value modulo 32. -/
theorem shiftsByRegisterTakeFiveBits : Obligations.ShiftsByRegisterTakeFiveBits := by
  intro s rd rs1 rs2 n hn
  obtain rfl : n = shiftByReg (readReg s rs2) := hn.trans (shiftByReg_eq _).symm
  exact ⟨writesOnly_of_writeBack_eq rfl (shiftLeft_eq_ofNat _ _),
    writesOnly_of_writeBack_eq rfl (shiftRightLogical_eq_ofNat _ _),
    writesOnly_of_writeBack_eq rfl (shiftRightArith_eq_ofInt _ _)⟩

/-- Settles O23. -/
theorem compareRegisters : Obligations.CompareRegisters := fun _ _ _ _ =>
  ⟨writesOnly_of_writeBack_eq rfl (boolWord_ltS _ _), writesOnly_of_writeBack_eq rfl (boolWord_ltU _ _)⟩

/-- Settles O25. -/
theorem logicOnRegisters : Obligations.LogicOnRegisters := fun _ _ _ _ =>
  ⟨⟨_, writesOnly_of_writeBack rfl, fun _ _ => BitVec.getLsbD_xor⟩,
    ⟨_, writesOnly_of_writeBack rfl, fun _ _ => BitVec.getLsbD_or⟩,
    ⟨_, writesOnly_of_writeBack rfl, fun _ _ => BitVec.getLsbD_and⟩⟩

/-- Settles O27: the cases of the statement are the cases of `divResult` and `remResult`; past the two open ones they
are division rounded toward zero and its remainder. -/
theorem divRemAtEverySign : Obligations.DivRemAtEverySign := by
  rintro s rd rs1 rs2 a b rfl rfl
  split
  case isTrue hb =>
    exact ⟨writesOnly_of_writeBack_eq rfl (divResult_zero hb), writesOnly_of_writeBack_eq rfl (remResult_zero hb)⟩
  case isFalse hb =>
    split
    case isTrue ho =>
      rw [← divOverflows_iff] at ho
      exact ⟨writesOnly_of_writeBack_eq rfl (divResult_overflow hb ho),
        writesOnly_of_writeBack_eq rfl (remResult_overflow hb ho)⟩
    case isFalse ho =>
      rw [← divOverflows_iff] at ho
      have hb0 : (readReg s rs2).toInt ≠ 0 := BitVec.toInt_ne.mpr hb
      refine ⟨_, _, writesOnly_of_writeBack rfl, writesOnly_of_writeBack rfl, ?_⟩
      rw [toInt_divResult hb ho, toInt_remResult hb ho]
      exact ⟨(Int.tdiv_mul_add_tmod _ _).symm, Int.natAbs_tdiv _ _, tdiv_neg_iff, natAbs_tmod_lt hb0,
        tmod_eq_zero_or_neg_iff⟩

end Sys2Proof.Claims

/-! PROOFS. The statements on the I type instructions that shift, compare or combine bits (42_i_type_alu.md). They write
back what the R type instructions write, with the immediate in place of the second register: the arithmetic is theirs,
and what is new is which number, and which bits, a widened immediate is. -/

namespace Sys2Proof.Machine

/-! ## The widened immediate (R79, R124) -/

/-- Sign extension keeps the signed value. -/
theorem toInt_sext12 (imm : BitVec 12) : (sext12 imm).toInt = imm.toInt := BitVec.toInt_signExtend_of_le (by decide)

/-- Under `sign`, `sltiu` compares with the word of the immediate's signed value. -/
theorem sltiuImm_sign (imm : BitVec 12) : sltiuImm .sign imm = BitVec.ofInt 32 imm.toInt := rfl

/-- Zero extension keeps the unsigned value. -/
theorem toNat_sltiuImm_zero (imm : BitVec 12) : (sltiuImm .zero imm).toNat = imm.toNat :=
  BitVec.toNat_setWidth_of_le (by decide)

/-- Bit 11 of the immediate stands for every bit above it. -/
theorem getLsbD_sext12 (imm : BitVec 12) {k : Nat} (hk : k < 32) : (sext12 imm).getLsbD k = imm.getLsbD (min k 11) := by
  rw [sext12, BitVec.getLsbD_signExtend, decide_eq_true hk, Bool.true_and]
  split
  next hlow => rw [Nat.min_eq_left (Nat.le_of_lt_succ hlow)]
  next hhigh => rw [Nat.min_eq_right (by omega), BitVec.msb_eq_getLsbD_last]

end Sys2Proof.Machine

namespace Sys2Proof.Claims

open Machine

/-- What `sltiu` writes under the setting `SLTIU_IMM_EXT = ext` (R124). -/
theorem writesOnly_sltiu {s : State} {ext : SltiuImmExt} (hext : s.params.sltiuImmExt = ext) (rd rs1 : RegIdx)
    (imm : BitVec 12) : WritesOnly (.sltiu rd rs1 imm) s rd
      (if (readReg s rs1).toNat < (sltiuImm ext imm).toNat then 1#32 else 0#32) (plus s.pc 4) := by
  subst hext
  exact writesOnly_of_writeBack_eq rfl (boolWord_ltU _ _)

/-! ## The statements -/

/-- Settles O22: the laws of the shifts hold for every amount, so for the one in the instruction. -/
theorem shiftsByImmediate : Obligations.ShiftsByImmediate := fun _ _ _ _ =>
  ⟨writesOnly_of_writeBack_eq rfl (shiftLeft_eq_ofNat _ _),
    writesOnly_of_writeBack_eq rfl (shiftRightLogical_eq_ofNat _ _),
    writesOnly_of_writeBack_eq rfl (shiftRightArith_eq_ofInt _ _)⟩

/-- Settles O24: the two settings of `SLTIU_IMM_EXT` differ in the widened immediate alone. -/
theorem compareWithImmediate : Obligations.CompareWithImmediate := by
  intro s rd rs1 imm
  refine ⟨?slti, fun hsign => ?sign, fun hzero => ?zero⟩
  case slti =>
    rw [← toInt_sext12]
    exact writesOnly_of_writeBack_eq rfl (boolWord_ltS _ _)
  case sign =>
    rw [← sltiuImm_sign]
    exact writesOnly_sltiu hsign rd rs1 imm
  case zero =>
    rw [← toNat_sltiuImm_zero]
    exact writesOnly_sltiu hzero rd rs1 imm

/-- Settles O26: bit by bit on the sign-extended immediate, whose bits are the immediate's. -/
theorem logicWithImmediate : Obligations.LogicWithImmediate := by
  intro s rd rs1 imm
  refine ⟨⟨_, writesOnly_of_writeBack rfl, fun k hk => ?xori⟩, ⟨_, writesOnly_of_writeBack rfl, fun k hk => ?ori⟩,
    ⟨_, writesOnly_of_writeBack rfl, fun k hk => ?andi⟩⟩
  case xori => rw [BitVec.getLsbD_xor, getLsbD_sext12 imm hk]
  case ori => rw [BitVec.getLsbD_or, getLsbD_sext12 imm hk]
  case andi => rw [BitVec.getLsbD_and, getLsbD_sext12 imm hk]

end Sys2Proof.Claims

/-! PROOFS. The statement on the branches (46_b_type.md). The six differ in the condition they test alone: each is the
shared `branch` on a Boolean that says whether its condition holds, and what `branch` answers is said once for all. -/

namespace Sys2Proof.Machine

/-! ## The ordered comparisons and their negations (R173 to R176) -/

section Compare

variable (a b : Word)

theorem ltS_iff : ltS a b = true ↔ a.toInt < b.toInt := decide_eq_true_iff

theorem ltU_iff : ltU a b = true ↔ a.toNat < b.toNat := decide_eq_true_iff

theorem not_ltS_iff : (!ltS a b) = true ↔ b.toInt ≤ a.toInt := by
  rw [Bool.not_eq_true', ← Bool.not_eq_true, ltS_iff, not_lt]

theorem not_ltU_iff : (!ltU a b) = true ↔ b.toNat ≤ a.toNat := by
  rw [Bool.not_eq_true', ← Bool.not_eq_true, ltU_iff, not_lt]

end Compare

/-! ## What a branch answers (R170) -/

section BranchAnswers

variable {s : State} {c : Bool} {off : Word}

theorem branch_not_taken (hc : ¬ c = true) : branch s c off = .next (advance s) := if_neg hc

theorem branch_taken_aligned (hc : c = true) (hal : (s.pc + off).toNat % 4 = 0) :
    branch s c off = .next (setPc s (s.pc + off)) := by
  rw [branch, if_pos hc, if_pos ((aligned4_iff _).mpr hal)]

theorem branch_taken_misaligned (hc : c = true) (hal : (s.pc + off).toNat % 4 ≠ 0) :
    branch s c off = .fault (.instructionAddressMisaligned (s.pc + off)) := by
  rw [branch, if_pos hc, if_neg (mt (aligned4_iff _).mp hal), raise]

end BranchAnswers

end Sys2Proof.Machine

namespace Sys2Proof.Claims

open Machine

/-- An instruction that answers the state with only the pc set changes nothing else. -/
theorem movesOnly_of_setPc {i : Instr} {s : State} {p : Word} (h : exec i s = .next (setPc s p)) : MovesOnly i s p :=
  ⟨setPc s p, h, readReg_setPc s p, setPc_pc s p, readByte_setPc s p, setPc_params s p⟩

/-- Every branch is the shared one, on a Boolean that says whether its condition holds (R171 to R177). -/
theorem exec_branchOf {s : State} {i : Instr} {off : BitVec 13} {taken : Prop} (h : BranchOf s i off taken) :
    ∃ c : Bool, (taken ↔ c = true) ∧ exec i s = branch s c (immB off) := by
  obtain ⟨rs1, rs2, ⟨rfl, beq⟩ | ⟨rfl, bne⟩ | ⟨rfl, blt⟩ | ⟨rfl, bge⟩ | ⟨rfl, bltu⟩ | ⟨rfl, bgeu⟩⟩ := h
  · exact ⟨_, beq.trans decide_eq_true_iff.symm, rfl⟩
  · exact ⟨_, bne.trans decide_eq_true_iff.symm, rfl⟩
  · exact ⟨_, blt.trans (ltS_iff _ _).symm, rfl⟩
  · exact ⟨_, bge.trans (not_ltS_iff _ _).symm, rfl⟩
  · exact ⟨_, bltu.trans (ltU_iff _ _).symm, rfl⟩
  · exact ⟨_, bgeu.trans (not_ltU_iff _ _).symm, rfl⟩

/-! ## The statement -/

/-- Settles O36: the three answers of the shared branch, its Boolean read as the condition. -/
theorem branchesGoWhereTheConditionSays : Obligations.BranchesGoWhereTheConditionSays := by
  intro s i off taken target hbranch htarget
  obtain ⟨c, htaken, hexec⟩ := exec_branchOf hbranch
  rw [plus_immB] at htarget
  subst htarget
  refine ⟨fun ht hal => ?aligned, fun ht hmis => ?misaligned, fun hnt => ?notTaken⟩
  case aligned => exact movesOnly_of_setPc (hexec.trans (branch_taken_aligned (htaken.mp ht) hal))
  case misaligned => exact hexec.trans (branch_taken_misaligned (htaken.mp ht) hmis)
  case notTaken =>
    rw [plus_four]
    exact movesOnly_of_setPc (hexec.trans (branch_not_taken (mt htaken.mpr hnt)))

end Sys2Proof.Claims

/-! PROOFS. The statements on the jumps that link (47_j_type.md). `jal` and `jalr` differ in the target alone: what the
shared `jumpAndLink` answers, and what it changes, is said once for both. -/

namespace Sys2Proof.Machine

/-! ## What a jump that links answers (R180) -/

section JumpAnswers

variable {s : State} {rd : RegIdx} {target : Word}

theorem jumpAndLink_aligned (hal : target.toNat % 4 = 0) :
    jumpAndLink s rd target = .next (setPc (writeReg s rd (s.pc + 4#32)) target) := by
  rw [jumpAndLink, if_pos ((aligned4_iff _).mpr hal)]

theorem jumpAndLink_misaligned (hmis : target.toNat % 4 ≠ 0) :
    jumpAndLink s rd target = .fault (.instructionAddressMisaligned target) := by
  rw [jumpAndLink, if_neg (mt (aligned4_iff _).mp hmis), raise]

end JumpAnswers

end Sys2Proof.Machine

namespace Sys2Proof.Claims

open Machine

section Jumps

variable {i : Instr} {s : State} {rd : RegIdx} {target : Word}

/-- An instruction that answers the state with `rd` written and the pc set changes nothing else. -/
theorem writesOnly_of_setPc_writeReg {v : Word} (h : exec i s = .next (setPc (writeReg s rd v) target)) :
    WritesOnly i s rd v target :=
  ⟨_, h, fun hrd => readReg_writeReg_same s v hrd, readReg_x0 _, fun _ hr => readReg_writeReg_ne s v hr, setPc_pc _ _,
    fun a => readByte_writeReg s rd v a, writeReg_params s rd v⟩

/-- An instruction that is the shared jump links and jumps when the target is a multiple of 4, and raises when it is not
(R180). -/
theorem linksOrRaises_of_jumpAndLink (h : exec i s = jumpAndLink s rd target) :
    (target.toNat % 4 = 0 → WritesOnly i s rd (plus s.pc 4) target) ∧
      (target.toNat % 4 ≠ 0 → exec i s = .fault (.instructionAddressMisaligned target)) := by
  refine ⟨fun hal => ?aligned, fun hmis => ?misaligned⟩
  case aligned =>
    rw [plus_four]
    exact writesOnly_of_setPc_writeReg (h.trans (jumpAndLink_aligned hal))
  case misaligned => exact h.trans (jumpAndLink_misaligned hmis)

end Jumps

/-! ## The statements -/

/-- Settles O37: `jal` is the shared jump to `pc + off`. -/
theorem jalLinksAndJumps : Obligations.JalLinksAndJumps := by
  rintro s rd off target rfl
  have hexec : exec (.jal rd off) s = jumpAndLink s rd (s.pc + immJ off) := rfl
  rw [← plus_immJ] at hexec
  exact linksOrRaises_of_jumpAndLink hexec

/-- Settles O38: `jalr` is the shared jump to the old `x[rs1]` plus the immediate. -/
theorem jalrLinksAndJumps : Obligations.JalrLinksAndJumps := by
  rintro s rd rs1 imm target rfl
  have hexec : exec (.jalr rd rs1 imm) s = jumpAndLink s rd (readReg s rs1 + sext12 imm) := rfl
  rw [← plus_sext12] at hexec
  exact linksOrRaises_of_jumpAndLink hexec

end Sys2Proof.Claims

/-! PROOFS. The statement on the upper immediates (48_u_type.md). `lui` and `auipc` write back one value each, so what is
new is the number the widened field is: the field, moved up twelve bits. -/

namespace Sys2Proof.Machine

/-! ## The upper immediate as a number (R83) -/

/-- The field stands in the high twenty bits, so its value is multiplied by `2^12` and nothing is cut off. -/
theorem toNat_immU (imm : BitVec 20) : (immU imm).toNat = imm.toNat * 2 ^ 12 := by
  rw [immU, BitVec.toNat_append, BitVec.toNat_ofNat, Nat.zero_mod, Nat.or_zero, Nat.shiftLeft_eq]

theorem immU_eq_ofNat (imm : BitVec 20) : immU imm = BitVec.ofNat 32 (imm.toNat * 2 ^ 12) := by
  rw [← toNat_immU, BitVec.ofNat_toNat, BitVec.setWidth_eq]

/-- The sum of an address and an upper immediate is the sum of the numbers modulo `2^32` (R192). -/
theorem add_immU_eq_ofNat (a : Word) (imm : BitVec 20) :
    a + immU imm = BitVec.ofNat 32 (a.toNat + imm.toNat * 2 ^ 12) := by
  rw [BitVec.add_def, toNat_immU]

end Sys2Proof.Machine

namespace Sys2Proof.Claims

open Machine

/-! ## The statement -/

/-- Settles O28: both write back, `lui` the widened field and `auipc` its sum with the instruction's own address. -/
theorem upperImmediates : Obligations.UpperImmediates := by
  intro s rd imm
  have hlui : exec (.lui rd imm) s = writeBack s rd (immU imm) := rfl
  have hauipc : exec (.auipc rd imm) s = writeBack s rd (s.pc + immU imm) := rfl
  exact ⟨writesOnly_of_writeBack_eq hlui (immU_eq_ofNat imm),
    writesOnly_of_writeBack_eq hauipc (add_immU_eq_ofNat s.pc imm)⟩

end Sys2Proof.Claims

/-! PROOFS. The statements on how a step stops (60_exceptions.md). What the checks of an access answer, and which faults
an instruction can raise (`Raises`), is said above, and each statement picks its outcome from there. New here: when the
fetch stops, when the checked write traps, and that no shared operation refuses. -/

namespace Sys2Proof.Machine

/-! ## Where the fetch stops (R203, R204, R213) -/

theorem step_misaligned {s : State} (h : s.pc.toNat % 4 ≠ 0) : step s = .fault (.instructionAddressMisaligned s.pc) :=
  if_neg (mt (aligned4_iff s.pc).mp h)

theorem fetch_outsideText {s : State} {addr : Word} (h : cellsFind s.params.prog addr.toNat = none) :
    fetch s addr = .error (.fetchFault addr) := by
  rw [fetch, h]

theorem step_outsideText {s : State} (hal : s.pc.toNat % 4 = 0) (h : cellsFind s.params.prog s.pc.toNat = none) :
    step s = .fault (.fetchFault s.pc) := by
  rw [step, if_pos ((aligned4_iff s.pc).mpr hal), fetch_outsideText h]
  rfl

/-! ## What does not fit a word (R101, R104, R121) -/

theorem outsideSigned_iff (r : Int) : outsideSigned r = true ↔ ¬ (-2 ^ 31 ≤ r ∧ r ≤ 2 ^ 31 - 1) := by
  rw [outsideSigned, Bool.or_eq_true, decide_eq_true_eq, decide_eq_true_eq]
  omega

/-! ## No shared operation refuses (R223) -/

section Refused

variable {s : State} {rd rs1 rs2 : RegIdx} {off v : Word} {n : Nat} {r : Refusal}

theorem orRaise_ne_refused {α : Type} {x : Except Fault α} {k : α → Out} (hk : ∀ a, k a ≠ .refused r) :
    orRaise x k ≠ .refused r := by
  cases x with
  | ok a => exact hk a
  | error e => exact nofun

theorem writeBack_ne_refused : writeBack s rd v ≠ .refused r := nofun

theorem writeBackChecked_ne_refused {o : Bool} : writeBackChecked s rd o v ≠ .refused r := by
  rcases writeBackChecked_cases s rd o v with h | ⟨-, -, h⟩
  · exact h ▸ writeBack_ne_refused
  · exact h ▸ nofun

theorem load_ne_refused {widen : BitVec (8 * n) → Word} : load s rd rs1 off n widen ≠ .refused r :=
  orRaise_ne_refused fun _ => writeBack_ne_refused

theorem store_ne_refused : store s rs1 rs2 off n ≠ .refused r := orRaise_ne_refused fun _ => nofun

theorem branch_ne_refused {taken : Bool} : branch s taken off ≠ .refused r := by
  unfold branch
  split
  · split <;> exact nofun
  · exact nofun

theorem jumpAndLink_ne_refused {target : Word} : jumpAndLink s rd target ≠ .refused r := by
  unfold jumpAndLink
  split <;> exact nofun

end Refused

end Sys2Proof.Machine

namespace Sys2Proof.Claims

open Machine

/-! ## Which instruction raises which outcome -/

section Causes

variable {i : Instr} {s : State} {rd rs1 rs2 : RegIdx} {imm : BitVec 12} {n : Nat} {e : Fault} {p : Word}

/-- A load whose `MemRead` raises ends in that fault (R140). -/
theorem exec_of_memRead_error (hi : LoadOf i rd rs1 imm n)
    (h : memRead s (readReg s rs1 + sext12 imm) n = .error e) : exec i s = .fault e := by
  obtain ⟨_, hexec⟩ := exec_of_loadOf hi
  exact (hexec s).trans (load_of_memRead_error h)

/-- A store whose `MemWrite` raises ends in that fault (R160). -/
theorem exec_of_memWrite_error (hi : StoreOf i rs1 rs2 imm n)
    (h : memWrite s (readReg s rs1 + sext12 imm) n ((readReg s rs2).setWidth (8 * n)) = .error e) :
    exec i s = .fault e :=
  (exec_of_storeOf hi s).trans (store_of_memWrite_error h)

/-- Under `fault` the checked write of a signed result writes it or traps, as it fits a word or not (R116, R211). -/
theorem writesOrTraps_of_writeBackChecked {r : Int} {v : Word} (hp : s.params.overflowPolicy = .fault)
    (hexec : exec i s = writeBackChecked s rd (outsideSigned r) v) (hv : v = BitVec.ofInt 32 r) :
    WritesOrTraps i s rd r := by
  rw [writeBackChecked_fault hp] at hexec
  unfold WritesOrTraps
  split
  next hfits =>
    rw [if_neg (mt (outsideSigned_iff r).mp (not_not_intro hfits))] at hexec
    exact writesOnly_of_writeBack_eq hexec hv
  next hout => rwa [if_pos ((outsideSigned_iff r).mpr hout)] at hexec

/-- `ArithmeticOverflow` comes from the checked write alone (R211). -/
theorem exec_arithmeticOverflow (h : exec i s = .fault (.arithmeticOverflow p)) :
    s.params.overflowPolicy = .fault ∧ p = s.pc ∧ i.mnemonic ∈ ["add", "sub", "addi"] := by
  cases exec_raises h with
  | reads hr => simpa using memRead_error hr
  | stores hw => simpa using memWrite_error hw
  | overflow hp hi => exact ⟨hp, rfl, hi⟩

/-- `EnvironmentCall` comes from `ecall` alone (R209). -/
theorem exec_environmentCall (h : exec i s = .fault (.environmentCall p)) : i = .ecall := by
  cases exec_raises h with
  | reads hr => simpa using memRead_error hr
  | stores hw => simpa using memWrite_error hw
  | call hi => exact hi

/-- The proper end of a run is an `EnvironmentCall` (R223). -/
theorem treatment_final_iff (o : Out) : treatment o = .final ↔ ∃ p, o = .fault (.environmentCall p) := by
  constructor
  · intro h
    cases o with
    | next | refused => cases h
    | fault e =>
      cases e with
      | environmentCall p => exact ⟨p, rfl⟩
      | _ => cases h
  · rintro ⟨p, rfl⟩
    rfl

/-- A refusal comes from `ebreak` alone (R210). -/
theorem exec_refused {r : Refusal} (h : exec i s = .refused r) : i = .ebreak := by
  cases i with
  | add | sub | addi => exact absurd h writeBackChecked_ne_refused
  | mul | addu | subu | sll | slt | sltu | xor | div | srl | sra | or | rem | and
  | slli | slti | sltiu | xori | srli | srai | ori | andi | lui | auipc => exact absurd h writeBack_ne_refused
  | lb | lh | lw | lbu | lhu => exact absurd h load_ne_refused
  | sb | sh | sw => exact absurd h store_ne_refused
  | beq | bne | blt | bge | bltu | bgeu => exact absurd h branch_ne_refused
  | jal | jalr => exact absurd h jumpAndLink_ne_refused
  | ecall => cases h
  | ebreak => rfl

end Causes

/-! ## The statements -/

/-- Settles O19: the three are checked writes of their signed result, and no other instruction is a checked write. -/
theorem overflowTrapsOnlyUnderFaultPolicy : Obligations.OverflowTrapsOnlyUnderFaultPolicy := by
  intro s rd rs1 rs2 imm
  refine ⟨fun hfault => ⟨?add, ?sub, ?addi⟩, fun _ _ h => exec_arithmeticOverflow h⟩
  case add => exact writesOrTraps_of_writeBackChecked hfault rfl (add_eq_ofInt _ _)
  case sub => exact writesOrTraps_of_writeBackChecked hfault rfl (sub_eq_ofInt _ _)
  case addi =>
    rw [← toInt_sext12]
    exact writesOrTraps_of_writeBackChecked hfault rfl (add_eq_ofInt _ _)

/-- Settles O30: the three checks of `MemRead`, each where the ones before it pass. -/
theorem loadsStopInOrder : Obligations.LoadsStopInOrder := by
  rintro s i rd rs1 imm n a hi rfl
  refine ⟨fun hmis => ?misaligned, fun hal hout => ?unmapped, fun hal hmap hnone => ?noValue⟩
  case misaligned => exact exec_of_memRead_error hi (memRead_misaligned hmis)
  case unmapped => exact exec_of_memRead_error hi (memRead_unmapped hal (allMapped_eq_false hout))
  case noValue =>
    have hbytes := (readBytes_eq_none_iff s.mem n _).mpr hnone
    exact exec_of_memRead_error hi (memRead_noValue hal ((allMapped_iff s _ n).mpr hmap) hbytes)

/-- Settles O32: the two checks of `MemWrite`, in their order. -/
theorem storesStopInOrder : Obligations.StoresStopInOrder := by
  rintro s i rs1 rs2 imm n a hi rfl
  refine ⟨fun hmis => ?misaligned, fun hal hout => ?unmapped⟩
  case misaligned => exact exec_of_memWrite_error hi (memWrite_misaligned _ hmis)
  case unmapped => exact exec_of_memWrite_error hi (memWrite_unmapped _ hal (allMapped_eq_false hout))

/-- Settles O39: the proper end is an `EnvironmentCall`, which `ecall` alone raises. -/
theorem ecallAloneEndsARunProperly : Obligations.EcallAloneEndsARunProperly := by
  refine fun s => ⟨rfl, fun i hfinal => ?_⟩
  obtain ⟨_, hcall⟩ := (treatment_final_iff _).mp hfinal
  exact exec_environmentCall hcall

/-- Settles O40: every instruction but `ebreak` is `ecall` or a shared operation, and none of those refuses. -/
theorem ebreakAloneIsRefused : Obligations.EbreakAloneIsRefused :=
  fun _ => ⟨rfl, fun _ _ h => exec_refused h⟩

/-- Settles O16. -/
theorem fetchStopsOutsideTheText : Obligations.FetchStopsOutsideTheText :=
  fun _ => ⟨step_misaligned, step_outsideText⟩

end Sys2Proof.Claims

/-! PROOFS. The statements on reset and the end of a run (70_reset_and_hazards.md). New here: where a register stands in
the register file, the four things a step can come to, and that a run keeps its parameters from any state. -/

namespace Sys2Proof.Machine

/-- Register `i` other than `x0` stands at index `i - 1` (R11, R21). -/
theorem readReg_of_index (s : State) {i : RegIdx} {k : Fin 31} (h : k.val + 1 = i.toNat) : readReg s i = s.regs[k] := by
  simp [readReg, ← h]

end Sys2Proof.Machine

namespace Sys2Proof.Claims

open Machine

/-- Only the `ecall` word decodes to `ecall` (R87). -/
theorem eq_ecallWord_of_decode {w : Word} (h : decode w = .ok .ecall) : w = 0x00000073#32 :=
  (fitsRow_iff_word rfl).mp (decode_fitsRow w .ecall h)

/-- What a step comes to: one of the three outcomes of the fetch and the decoder, or the execution of what the word of
program text at an aligned pc decodes to (R25, R213). -/
theorem step_cases (s : State) :
    step s = .fault (.instructionAddressMisaligned s.pc) ∨ step s = .fault (.fetchFault s.pc) ∨
      (∃ w, step s = .fault (.illegalInstruction s.pc w)) ∨
      ∃ w i, s.pc.toNat % 4 = 0 ∧ cellsFind s.params.prog s.pc.toNat = some w ∧ decode w = .ok i ∧
        step s = exec i s := by
  by_cases hal : s.pc.toNat % 4 = 0
  case neg => exact .inl (step_misaligned hal)
  cases hw : cellsFind s.params.prog s.pc.toNat with
  | none => exact .inr (.inl (step_outsideText hal hw))
  | some w =>
    cases hd : decode w with
    | error r => exact .inr (.inr (.inl ⟨w, (step_illegalInstruction_iff hal hw).mpr ⟨r, hd⟩⟩))
    | ok i => exact .inr (.inr (.inr ⟨w, i, hal, rfl, hd, step_eq_exec hal hw hd⟩))

/-- A step that raises `EnvironmentCall` stands at an `ecall` word of the program text and reports its pc (R151). -/
theorem step_environmentCall {s : State} {p : Word} (h : step s = .fault (.environmentCall p)) :
    s.pc.toNat % 4 = 0 ∧ cellsFind s.params.prog s.pc.toNat = some 0x00000073#32 ∧ p = s.pc := by
  rcases step_cases s with hs | hs | ⟨_, hs⟩ | ⟨w, i, hal, hw, hd, hs⟩ <;> rw [h] at hs
  case inr.inr.inr =>
    obtain rfl := exec_environmentCall hs.symm
    obtain rfl := eq_ecallWord_of_decode hd
    cases hs
    exact ⟨hal, hw, rfl⟩
  all_goals cases hs

/-- No run changes a parameter, whatever state it begins in (R20, R58). -/
theorem reaches_params {s t : State} (h : Reaches s t) : t.params = s.params := by
  induction h with
  | refl => rfl
  | step _ hstep ih => exact (step_params hstep).trans ih

/-! ## The statements -/

/-- Settles O41: the last step raised an `EnvironmentCall`, so the text of `t` holds the `ecall` word there, and the run
kept the text of `s`. -/
theorem properEndStandsAtAnEcall : Obligations.ProperEndStandsAtAnEcall := by
  rintro s t ⟨hreach, hfinal⟩
  obtain ⟨p, hcall⟩ := (treatment_final_iff _).mp hfinal
  obtain ⟨hal, hword, rfl⟩ := step_environmentCall hcall
  exact ⟨hal, reaches_params hreach ▸ hword, hcall⟩

/-- Settles O2. -/
theorem resetTakesTheParameters : Obligations.ResetTakesTheParameters :=
  fun p pc r m => ⟨resetWith_pc p pc r m, readReg_x0 _, fun _ _ hk => readReg_of_index _ hk, fun _ => rfl,
    resetWith_params p pc r m⟩

end Sys2Proof.Claims

/-! PROOFS. The statements on the decoder and the encoder as inverses of each other (30_encoding.md sections 2 to 5),
and on what `State.reset` holds. A word is the word of its own fields in every format, the S, B and J formats taking an
immediate apart exactly as `immS`, `immB` and `immJ` put it together; so what the decoder answers is well formed and
its word is the word decoded. -/

namespace Sys2Proof

/-! ## A word and its fields: the S, B and J formats (R74 to R76) -/

theorem evenOffset_append_zero {n : Nat} (x : BitVec n) : evenOffset (x ++ 0#1) = true := by
  simp [evenOffset, BitVec.getElem_append]

section Fields

variable (w : Word)

/-- The encoder takes an S immediate apart as `immS` puts it together (R80). -/
theorem immSOf_slices : (immSOf w).extractLsb' 5 7 = funct7Of w ∧ (immSOf w).extractLsb' 0 5 = rdOf w := by
  simp (disch := omega) only [immSOf, funct7Of, rdOf, extract_append_low, extract_append_high, extract_full,
    Nat.reduceSub, and_self]

/-- The encoder takes a B offset apart as `immB` puts it together (R81). -/
theorem immBOf_slices : (immBOf w).extractLsb' 12 1 = w.extractLsb' 31 1 ∧
    (immBOf w).extractLsb' 5 6 = w.extractLsb' 25 6 ∧ (immBOf w).extractLsb' 1 4 = w.extractLsb' 8 4 ∧
    (immBOf w).extractLsb' 11 1 = w.extractLsb' 7 1 := by
  simp (disch := omega) only [immBOf, extract_append_low, extract_append_high, extract_full, Nat.reduceSub, and_self]

/-- The encoder takes a J offset apart as `immJ` puts it together (R82). -/
theorem immJOf_slices : (immJOf w).extractLsb' 20 1 = w.extractLsb' 31 1 ∧
    (immJOf w).extractLsb' 1 10 = w.extractLsb' 21 10 ∧ (immJOf w).extractLsb' 11 1 = w.extractLsb' 20 1 ∧
    (immJOf w).extractLsb' 12 8 = w.extractLsb' 12 8 := by
  simp (disch := omega) only [immJOf, extract_append_low, extract_append_high, extract_full, Nat.reduceSub, and_self]

/-- A word is the S format's word of its own fields (R74). -/
theorem encodeS_fields : encodeS (funct3Of w) (opcodeOf w) (rs1Of w) (rs2Of w) (immSOf w) = w := by
  obtain ⟨hhigh, hlow⟩ := immSOf_slices w
  rw [encodeS, hhigh, hlow]
  exact encodeR_fields w

/-- A word is the B format's word of its own fields (R75). -/
theorem encodeB_fields : encodeB (funct3Of w) (opcodeOf w) (rs1Of w) (rs2Of w) (immBOf w) = w := by
  obtain ⟨h12, h5, h1, h11⟩ := immBOf_slices w
  rw [encodeB, h12, h5, h1, h11, rs2Of, rs1Of, funct3Of, opcodeOf, extract_append_extract w 25 1 6,
    extract_append_extract w 20 7 5, extract_append_extract w 15 12 5, extract_append_extract w 12 17 3,
    extract_append_extract w 8 20 4, extract_append_extract w 7 24 1, extract_append_extract w 0 25 7]
  exact extract_full w

/-- A word is the J format's word of its own fields (R76). -/
theorem encodeJ_fields : encodeJ (opcodeOf w) (rdOf w) (immJOf w) = w := by
  obtain ⟨h20, h1, h11, h12⟩ := immJOf_slices w
  rw [encodeJ, h20, h1, h11, h12, rdOf, opcodeOf, extract_append_extract w 21 1 10, extract_append_extract w 20 11 1,
    extract_append_extract w 12 12 8, extract_append_extract w 7 20 5, extract_append_extract w 0 25 7]
  exact extract_full w

/-- `immB` ends in a zero bit (R81). -/
theorem evenOffset_immBOf : evenOffset (immBOf w) = true := evenOffset_append_zero _

/-- `immJ` ends in a zero bit (R82). -/
theorem evenOffset_immJOf : evenOffset (immJOf w) = true := evenOffset_append_zero _

end Fields

/-! ## A word from its fixed fields: what a row of the decoder checked, and the operands it read -/

section FixedFields

variable {w : Word} {op : BitVec 7} {f3 : BitVec 3} {f7 : BitVec 7}

theorem encodeR_eq (hop : opcodeOf w = op) (hf3 : funct3Of w = f3) (hf7 : funct7Of w = f7) :
    encodeR f7 f3 op (rdOf w) (rs1Of w) (rs2Of w) = w := by
  rw [← hop, ← hf3, ← hf7, encodeR_fields]

theorem encodeI_eq (hop : opcodeOf w = op) (hf3 : funct3Of w = f3) :
    encodeI f3 op (rdOf w) (rs1Of w) (immIOf w) = w := by
  rw [← hop, ← hf3, encodeI_fields]

theorem encodeS_eq (hop : opcodeOf w = op) (hf3 : funct3Of w = f3) :
    encodeS f3 op (rs1Of w) (rs2Of w) (immSOf w) = w := by
  rw [← hop, ← hf3, encodeS_fields]

theorem encodeB_eq (hop : opcodeOf w = op) (hf3 : funct3Of w = f3) :
    encodeB f3 op (rs1Of w) (rs2Of w) (immBOf w) = w := by
  rw [← hop, ← hf3, encodeB_fields]

theorem encodeJ_eq (hop : opcodeOf w = op) : encodeJ op (rdOf w) (immJOf w) = w := by
  rw [← hop, encodeJ_fields]

theorem encodeU_eq (hop : opcodeOf w = op) : encodeU op (rdOf w) (immUOf w) = w := by
  rw [← hop, encodeU_fields]

end FixedFields

end Sys2Proof

namespace Sys2Proof.Claims

open Machine

/-! ## The decoder answers the instruction whose word it reads -/

/-- The word is the instruction's, a well-formed one (R72 to R78, R87). -/
def IsWordOf (w : Word) (i : Instr) : Prop := i.wellFormed = true ∧ encode i = w

section Families

variable {w : Word}

theorem decodeR_isWordOf (hop : opcodeOf w = 0b0110011#7) : Gives (IsWordOf w) (decodeR w) := by
  unfold decodeR
  repeat refine Gives.ite (fun ⟨hf3, hf7⟩ => .ok ⟨rfl, encodeR_eq hop hf3 hf7⟩) fun _ => ?_
  exact .error _

theorem decodeImm_isWordOf (hop : opcodeOf w = 0b0010011#7) : Gives (IsWordOf w) (decodeImm w) := by
  unfold decodeImm
  exact .ite (fun hf3 => .ok ⟨rfl, encodeI_eq hop hf3⟩) fun h0 =>
    .ite (fun hf3 => .ite (fun hf7 => .ok ⟨rfl, encodeR_eq hop hf3 hf7⟩) fun _ => .error _) fun h1 =>
    .ite (fun hf3 => .ok ⟨rfl, encodeI_eq hop hf3⟩) fun h2 =>
    .ite (fun hf3 => .ok ⟨rfl, encodeI_eq hop hf3⟩) fun h3 =>
    .ite (fun hf3 => .ok ⟨rfl, encodeI_eq hop hf3⟩) fun h4 =>
    .ite (fun hf3 => .ite (fun hf7 => .ok ⟨rfl, encodeR_eq hop hf3 hf7⟩) fun _ =>
      .ite (fun hf7 => .ok ⟨rfl, encodeR_eq hop hf3 hf7⟩) fun _ => .error _) fun h5 =>
    .ite (fun hf3 => .ok ⟨rfl, encodeI_eq hop hf3⟩) fun h6 =>
    .ok ⟨rfl, encodeI_eq hop (funct3_eq_seven h0 h1 h2 h3 h4 h5 h6)⟩

theorem decodeLoad_isWordOf (hop : opcodeOf w = 0b0000011#7) : Gives (IsWordOf w) (decodeLoad w) := by
  unfold decodeLoad
  repeat refine Gives.ite (fun hf3 => .ok ⟨rfl, encodeI_eq hop hf3⟩) fun _ => ?_
  exact .error _

theorem decodeStore_isWordOf (hop : opcodeOf w = 0b0100011#7) : Gives (IsWordOf w) (decodeStore w) := by
  unfold decodeStore
  repeat refine Gives.ite (fun hf3 => .ok ⟨rfl, encodeS_eq hop hf3⟩) fun _ => ?_
  exact .error _

theorem decodeBranch_isWordOf (hop : opcodeOf w = 0b1100011#7) : Gives (IsWordOf w) (decodeBranch w) := by
  unfold decodeBranch
  repeat refine Gives.ite (fun hf3 => .ok ⟨evenOffset_immBOf w, encodeB_eq hop hf3⟩) fun _ => ?_
  exact .error _

theorem decodeJalr_isWordOf (hop : opcodeOf w = 0b1100111#7) : Gives (IsWordOf w) (decodeJalr w) :=
  .ite (fun hf3 => .ok ⟨rfl, encodeI_eq hop hf3⟩) fun _ => .error _

theorem decodeSystem_isWordOf : Gives (IsWordOf w) (decodeSystem w) :=
  .ite (fun h => .ok ⟨rfl, h.symm⟩) fun _ => .ite (fun h => .ok ⟨rfl, h.symm⟩) fun _ => .error _

/-- What a word decodes to is well formed and has that word: the decoder drops no bit (R84). -/
theorem decode_isWordOf (w : Word) : Gives (IsWordOf w) (decode w) :=
  .ite decodeR_isWordOf fun _ => .ite decodeImm_isWordOf fun _ => .ite decodeLoad_isWordOf fun _ =>
    .ite (fun _ => decodeSystem_isWordOf) fun _ => .ite decodeStore_isWordOf fun _ =>
    .ite decodeBranch_isWordOf fun _ =>
    .ite (fun hop => .ok ⟨evenOffset_immJOf w, encodeJ_eq hop⟩) fun _ =>
    .ite decodeJalr_isWordOf fun _ =>
    .ite (fun hop => .ok ⟨rfl, encodeU_eq hop⟩) fun _ =>
    .ite (fun hop => .ok ⟨rfl, encodeU_eq hop⟩) fun _ => .error _

end Families

/-- Decoding and encoding are inverse: a word decodes to an instruction exactly when it is the instruction's word. -/
theorem decode_eq_ok_iff {w : Word} {i : Instr} : decode w = .ok i ↔ IsWordOf w i :=
  ⟨decode_isWordOf w i, fun ⟨hwf, hw⟩ => hw ▸ decode_encode hwf⟩

/-! ## What `State.reset` holds (notes 2 and 4) -/

theorem readReg_reset (i : RegIdx) : readReg State.reset i = 0#32 := by
  unfold readReg
  split
  next => rfl
  next => exact Vector.getElem_replicate _

theorem mapped_reset (a : Nat) : mapped State.reset a = decide (a < 2 ^ 32) := by
  simp [mapped, State.reset, Config.memMap, regionHas, inText]

/-! ## The statements -/

/-- Settles O10, format by format in `decode_encode`. -/
theorem decodeInvertsEncode : Obligations.DecodeInvertsEncode := fun _ hwf => decode_encode hwf

/-- Settles O11, opcode by opcode in `decode_isWordOf`. -/
theorem encodeInvertsDecode : Obligations.EncodeInvertsDecode := decode_isWordOf

/-- Settles O3: the pc and the empty memory stand in `State.reset` as written. -/
theorem resetNamesEveryValue : Obligations.ResetNamesEveryValue :=
  ⟨rfl, readReg_reset, fun _ => rfl, mapped_reset⟩

/-- Settles O14: each word is what the encoder makes of its instruction. -/
theorem sampleWordsDecode : Obligations.SampleWordsDecode := by
  simp only [Obligations.SampleWordsDecode, decode_eq_ok_iff, IsWordOf]
  decide

end Sys2Proof.Claims
